-- ==== Sys2Proof/Word.lean ====
section
/-! DEFINITION. The elementary types of the block: byte, bit, character sequence (20_memory.md R50, R51). -/

namespace Sys2Proof

/-- An 8-bit unsigned value: an element of `BYTE`, and the command word (R51, R75). -/
abbrev Byte := BitVec 8

/-- An element of `BIT`: `true` is 1, `false` is 0 (R34, R51). -/
abbrev Bit := Bool

/-- A text: a finite sequence of Unicode scalar values (30_encoding.md R82). -/
abbrev Text := List Char

end Sys2Proof
end

