-- ==== Sys2Proof/Config.lean ====
section
/-! DEFINITION. What one instance of the block fixes at construction: the parameters of 00_scope.md R10. -/

namespace Sys2Proof

/-- What a build may add to the integer grammar, of the kinds that 40_value_parser.md R106 names: a `+` sign, characters
allowed around the literal, characters allowed between two digits. DESIGN CHOICE (log 4). -/
structure Relaxation where
  plus       : Bool
  around     : List Char
  separators : List Char
  deriving DecidableEq, Repr

/-- A setting of the open parameter `INT_EXT : Text -> Int or invalid` (R106, D14), as plain data. `invalid` is the constant
`invalid`; `listed` gives single texts their values; `relaxed` admits what a `Relaxation` says; `other` names any other
function at all, which `Config.intExtOther` leaves open (log 4). -/
inductive IntExt where
  | invalid
  | listed (table : List (Text × Int))
  | relaxed (r : Relaxation)
  | other (setting : Nat)
  deriving DecidableEq, Repr

/-- The function that setting `other setting` of `INT_EXT` stands for; `none` is `invalid`. It has no body: a claim that holds
of it holds of every function (R106; log 4). -/
opaque Config.intExtOther (setting : Nat) : Text → Option Int

/-- The parameters of a block instance (R9, R10, R106). They are plain data, constant for the life of the instance.
`none` is "no bound". -/
structure Config where
  spb     : Nat
  maxText : Option Nat
  maxBits : Option Nat
  intExt  : IntExt
  deriving DecidableEq, Repr

/-- The reference instance: `SPB = 100`, no bounds, `INT_EXT` the constant `invalid` (R9, D9, D10, D14). -/
def Config.reference : Config := { spb := 100, maxText := none, maxBits := none, intExt := .invalid }

/-- The registers of the table of 10_state.md R38. -/
inductive RegName where
  | spb | st | cmd | nbytes | nbits | q | n | p | k | pol | err | errmode
  deriving DecidableEq, Repr

/-- `REGMAP`: the platform's bus address of each register, open and used by no rule (R38, D11). -/
opaque Config.regMap : RegName → Nat

end Sys2Proof
end

