-- ==== Sys2Proof/Syntax.lean ====
section
/-! DEFINITION. The commands of the block, their modes and schemes, and what the host may do (30_encoding.md, 70_reset_and_hazards.md R255). -/

namespace Sys2Proof

/-- The three modes of `parse` (10_state.md R36). -/
inductive Mode where
  | integer | hexBytes | binary
  deriving DecidableEq, Repr

/-- The nine SchemeIds in registry order (00_scope.md R2, 10_state.md R36). -/
inductive Scheme where
  | nrzu | nrzb | rzu | rzb | ami | man | mark | space | clk
  deriving DecidableEq, Repr

/-- The schemes in the order of the source's table (44_registry_and_composites.md R201). -/
def Scheme.all : List Scheme := [.nrzu, .nrzb, .rzu, .rzb, .ami, .man, .mark, .space, .clk]

/-- The commands: one constructor per row of the opcode table (30_encoding.md R80). -/
inductive Instr where
  | parseInt
  | parseHex
  | parseBin
  | extract
  | encNrzu
  | encNrzb
  | encRzu
  | encRzb
  | encAmi
  | encMan
  | encMark
  | encSpace
  | encClk
  | schemes
  deriving DecidableEq, Repr

/-- The `PARSE` command of a mode (R77, R78). -/
def Instr.parse : Mode → Instr
  | .integer => .parseInt
  | .hexBytes => .parseHex
  | .binary => .parseBin

/-- The `ENC` command of a scheme (R77, R79). -/
def Instr.enc : Scheme → Instr
  | .nrzu => .encNrzu
  | .nrzb => .encNrzb
  | .rzu => .encRzu
  | .rzb => .encRzb
  | .ami => .encAmi
  | .man => .encMan
  | .mark => .encMark
  | .space => .encSpace
  | .clk => .encClk

/-- Every command, in the order of the opcode table. -/
def Instr.all : List Instr :=
  [.parseInt, .parseHex, .parseBin, .extract, .encNrzu, .encNrzb, .encRzu, .encRzb, .encAmi, .encMan, .encMark,
    .encSpace, .encClk, .schemes]

/-- Which operand sequence a command takes (R81). -/
inductive OperandKind where
  | text | bytes | bits | nothing
  deriving DecidableEq, Repr

/-- The operand column of the opcode map (R80, R81). -/
def Instr.operand : Instr → OperandKind
  | .parseInt => .text
  | .parseHex => .text
  | .parseBin => .text
  | .extract => .bytes
  | .encNrzu => .bits
  | .encNrzb => .bits
  | .encRzu => .bits
  | .encRzb => .bits
  | .encAmi => .bits
  | .encMan => .bits
  | .encMark => .bits
  | .encSpace => .bits
  | .encClk => .bits
  | .schemes => .nothing

/-- A request as the host offers it: the command word and the sequence the host has placed in each operand space (R50,
R81). A command takes the one sequence of its own kind and ignores the other two. DESIGN CHOICE, safe (log 2). -/
structure Request where
  word  : Byte
  text  : Text
  bytes : List Byte
  bits  : List Bit
  deriving DecidableEq, Repr

/-- One move of the host: offer a request and wait until it is taken (R186, R187), let the block take one step with
nothing offered, or assert reset (R244). DESIGN CHOICE, safe (log 1). -/
inductive HostMove where
  | request (r : Request)
  | wait
  | reset
  deriving DecidableEq, Repr

end Sys2Proof
end

