-- ==== Sys2Proof/WellFormed.lean ====
section
/-! DEFINITION. The checks on what is given to the block: the command word, the instance's parameters. -/

namespace Sys2Proof

/-- No command has an operand field, so every command is well-formed as syntax (30_encoding.md R75). -/
def Instr.wf : Instr → Bool
  | .parseInt | .parseHex | .parseBin | .extract | .encNrzu | .encNrzb | .encRzu | .encRzb | .encAmi | .encMan | .encMark
  | .encSpace | .encClk | .schemes => true

/-- `SPB` is a positive integer (10_state.md R21), and the setting of `INT_EXT` lists no value for the empty text
(40_value_parser.md R106). -/
def Config.wf (c : Config) : Bool :=
  decide (1 ≤ c.spb) && match c.intExt with
    | .listed table => table.all fun e => !e.1.isEmpty
    | .invalid => true
    | .relaxed _ => true
    | .other _ => true

/-- The words R89 lists as reserved, in its own terms: `op` is `w[7:4]` and `sel` is `w[3:0]`. -/
def reservedWord (w : Byte) : Bool :=
  let op := w.toNat / 16
  let sel := w.toNat % 16
  decide (4 ≤ op) || (decide (op = 0) && decide (3 ≤ sel)) || (decide (op = 1) && decide (sel ≠ 0)) ||
    (decide (op = 2) && decide (9 ≤ sel)) || (decide (op = 3) && decide (sel ≠ 0))

/-- A request is well-formed when its command word has a meaning (R186). -/
def Request.wf (r : Request) : Bool := !reservedWord r.word

end Sys2Proof
end

