-- ==== Sys2Proof/Decode.lean ====
section
/-! DEFINITION. The command word, its decoder and its encoder (30_encoding.md R75 to R80, R89 to R91). -/

namespace Sys2Proof

/-- Why a word is reserved: the five clauses of R89. -/
inductive Reserved where
  | opClass        -- `OP` is 0x4 to 0xF
  | parseMode      -- `PARSE` with `SEL >= 3`
  | extractSel     -- `EXTRACT` with `SEL != 0`
  | encScheme      -- `ENC` with `SEL >= 9`
  | schemesSel     -- `SCHEMES` with `SEL != 0`
  deriving DecidableEq, Repr

/-- What the decoder answers: a command, or `reserved` with the clause of R89 that says so. -/
inductive Decoded where
  | instr (i : Instr)
  | reserved (why : Reserved)
  deriving DecidableEq, Repr

/-- The field `OP = CMD[7:4]` (R75). -/
def opField (w : Byte) : BitVec 4 := w.extractLsb' 4 4

/-- The field `SEL = CMD[3:0]` (R75). -/
def selField (w : Byte) : BitVec 4 := w.extractLsb' 0 4

/-- Mode numbers (R78). -/
def Mode.num : Mode → Nat
  | .integer => 0
  | .hexBytes => 1
  | .binary => 2

/-- The mode of a number (R78); no other number is a mode. -/
def Mode.ofNum : Nat → Option Mode
  | 0 => some .integer
  | 1 => some .hexBytes
  | 2 => some .binary
  | _ => none

/-- SchemeId numbers (R79). -/
def Scheme.num : Scheme → Nat
  | .nrzu => 0
  | .nrzb => 1
  | .rzu => 2
  | .rzb => 3
  | .ami => 4
  | .man => 5
  | .mark => 6
  | .space => 7
  | .clk => 8

/-- The scheme of a number (R79); no other number is a scheme. -/
def Scheme.ofNum : Nat → Option Scheme
  | 0 => some .nrzu
  | 1 => some .nrzb
  | 2 => some .rzu
  | 3 => some .rzb
  | 4 => some .ami
  | 5 => some .man
  | 6 => some .mark
  | 7 => some .space
  | 8 => some .clk
  | _ => none

/-- `decode(w)` of R91, total on the 256 words. -/
def decode (w : Byte) : Decoded :=
  match (opField w).toNat with
  | 0 => match Mode.ofNum (selField w).toNat with
    | some m => .instr (.parse m)
    | none => .reserved .parseMode
  | 1 => if selField w = 0 then .instr .extract else .reserved .extractSel
  | 2 => match Scheme.ofNum (selField w).toNat with
    | some c => .instr (.enc c)
    | none => .reserved .encScheme
  | 3 => if selField w = 0 then .instr .schemes else .reserved .schemesSel
  | _ => .reserved .opClass

/-- `encode_cmd` of R91, written from the word column of R80's table. -/
def encode : Instr → Byte
  | .parseInt => 0x00
  | .parseHex => 0x01
  | .parseBin => 0x02
  | .extract => 0x10
  | .encNrzu => 0x20
  | .encNrzb => 0x21
  | .encRzu => 0x22
  | .encRzb => 0x23
  | .encAmi => 0x24
  | .encMan => 0x25
  | .encMark => 0x26
  | .encSpace => 0x27
  | .encClk => 0x28
  | .schemes => 0x30

/-- The command of a decoder's answer, if it is one. -/
def Decoded.toOption : Decoded → Option Instr
  | .instr i => some i
  | .reserved _ => none

/-- The command in a row of the opcode table: every command is exactly one byte (R90), so a longer or wider word is none. -/
def decodeTableWord (nbits w : Nat) : Option Instr :=
  if nbits ≤ 8 ∧ w < 256 then (decode (BitVec.ofNat 8 w)).toOption else none

end Sys2Proof
end

