-- ==== Sys2Proof/Machine/State.lean ====
section
/-! DEFINITION. The state of the block as plain data (10_state.md), why a step can stop, and the state after reset. -/

namespace Sys2Proof.Machine

/-- `ST`: `IDLE = 0`, `BUSY = 1` (R22). -/
inductive Status where
  | idle | busy
  deriving DecidableEq, Repr

/-- A value of `POL`: -1 or +1, never 0 (R29). -/
inductive Polarity where
  | minus | plus
  deriving DecidableEq, Repr

/-- A level: -1, 0 or +1, no other (42_line_code_generators.md R143). -/
inductive Level where
  | neg | zero | pos
  deriving DecidableEq, Repr

/-- The sample record `(TIME = k, LEVEL)` (30_encoding.md R84, R86). -/
structure Sample where
  time  : Nat
  level : Level
  deriving DecidableEq, Repr

/-- One pair (display name, SchemeId number) of the registry response (R88). -/
structure RegEntry where
  name : String
  id   : Nat
  deriving DecidableEq, Repr

/-- The machine. `cfg` is constant (R21); two fields are the model's own: `host`, the host's coming moves (log 1), and
`ended`, the command whose request ended last and whose response the host may take, none while there is no such response
(43_sampler_step_machine.md R188, 70_reset_and_hazards.md R244; log 27). Every other field is a register or a sequence of 10_state.md under its own
name. -/
structure State where
  cfg      : Config
  host     : List HostMove
  st       : Status
  cmd      : Byte
  textIn   : Text
  bytesIn  : List Byte
  bitsIn   : List Bit
  nbytes   : Nat
  nbits    : Nat
  q        : Nat
  n        : Nat
  p        : Nat
  k        : Nat
  pol      : Polarity
  err      : Bool
  errMode  : BitVec 2
  bytesOut : List Byte
  bitsOut  : List Bit
  waveOut  : List Sample
  regOut   : List RegEntry
  ended    : Option Instr
  deriving DecidableEq, Repr

/-- Why the block cannot take a step. The spec has no stuck state (43_sampler_step_machine.md R193): both faults stand for
"none of the steps of R180 is enabled", and `step` raises neither from a state that meets the invariant. DEDUCED, safe (log 11). -/
inductive Fault where
  /-- A meaning was asked to accept while the host offers no request; raised by the accept step of every command. `step` never asks so. Safe. -/
  | noRequest
  /-- `ST = BUSY` with registers for which no step is enabled; raised by every command and by `step`. Safe. -/
  | noStepEnabled
  deriving DecidableEq, Repr

/-- Why the block gives a run no meaning (60_exceptions.md R226 to R228). -/
inductive Refusal where
  /-- The command of this mnemonic has no meaning in the model; raised by `exec`. Safe. -/
  | notModelled (mnemonic : String)
  /-- A reserved command word was offered, with the clause of R89 that reserves it; raised by `step` (R226). Safe. -/
  | reservedWord (w : Byte) (why : Reserved)
  /-- The operand, or the result, is over the instance's capacity; raised by the accept step of PARSE, EXTRACT and ENC (R227). Safe. -/
  | overCapacity
  /-- The instance has `SPB = 0`; raised by `construct` and by `step` (R228). Safe. -/
  | zeroSamplesPerBit
  deriving DecidableEq, Repr

/-- The state after reset of an instance, with the host's remaining moves (70_reset_and_hazards.md R241). `CMD` and
`ERRMODE` are unspecified there: both are 0 here, DESIGN CHOICE, unsafe (logs 5, 6). -/
def State.resetWith (cfg : Config) (host : List HostMove) : State where
  cfg := cfg
  host := host
  st := .idle
  cmd := 0
  textIn := []
  bytesIn := []
  bitsIn := []
  nbytes := 0
  nbits := 0
  q := 0
  n := 0
  p := 0
  k := 0
  pol := .minus
  err := false
  errMode := 0
  bytesOut := []
  bitsOut := []
  waveOut := []
  regOut := []
  ended := none

/-- The reference instance after reset, with a host that makes no move (R241, R242; reference parameters, log 3). -/
def State.reset : State := State.resetWith Config.reference []

end Sys2Proof.Machine
end

