-- ==== Sys2Proof/Machine/Flags.lean ====
section
/-! DEFINITION. The block's one flag `ERR` and the field `ERRMODE` beside it (10_state.md R30). -/

namespace Sys2Proof.Machine

/-- `ERR <- 0`: done when a request is accepted, and by every command that ends well. `ERRMODE` keeps what it holds, which
R30 leaves unspecified while `ERR = 0`: DESIGN CHOICE, unsafe (log 10). -/
def State.clearErr (s : State) : State := { s with err := false }

/-- `ERR <- 1`, `ERRMODE <- mode number` (R30, 60_exceptions.md R211). -/
def State.setErr (m : Mode) (s : State) : State := { s with err := true, errMode := BitVec.ofNat 2 m.num }

end Sys2Proof.Machine
end

