-- ==== Sys2Proof/Machine/Ops.lean ====
section
/-! DEFINITION. The shared operations: index spaces, accepting and completing a request, the one exception, and what the
host's moves do to the block. -/

namespace Sys2Proof.Machine

/-! ### Index spaces (20_memory.md R50, R62, R63) -/

/-- `MemRead(space, i, 1)`: the element at index `i`, none past the end (R63: no rule reads there). -/
def memRead {α : Type} (space : List α) (i : Nat) : Option α := space[i]?

/-- `MemWrite(space, |space|, 1, v)`: outputs are written once each in rising index order, so every write appends
(00_scope.md R13, R63). DEDUCED, safe (log 18). -/
def memWrite {α : Type} (space : List α) (v : α) : List α := space ++ [v]

/-! ### The host's offer -/

/-- The request the host offers now, if it offers one (R186). -/
def State.offered (s : State) : Option Request :=
  match s.host with
  | .request r :: _ => some r
  | _ => none

/-- The host's moves after the one it makes now. -/
def State.takeMove (s : State) : State := { s with host := s.host.tail }

/-- Is reset asserted now? -/
def State.resetAsserted (s : State) : Bool :=
  match s.host with
  | .reset :: _ => true
  | _ => false

/-- A step in which the host waits uses up that move; an offered request stays offered while the block is busy
(43_sampler_step_machine.md R187). -/
def State.passWait (s : State) : State :=
  match s.host with
  | .wait :: _ => s.takeMove
  | _ => s

/-- Reset: every register takes its reset value, a running request is abandoned and no response stands after it, and the instance's
parameters stay (70_reset_and_hazards.md R241, R244). -/
def State.takeReset (s : State) : State := State.resetWith s.cfg s.host.tail

/-- Constructing an instance: refused for `SPB = 0` (60_exceptions.md R228), else an `IDLE` instance with its `SPB`
(70_reset_and_hazards.md R245, R255). The spec gives a new instance no other register value before a reset: the model gives it
all those of the state after reset, `CMD` and `ERRMODE` 0 among them. DESIGN CHOICE, unsafe (log 24). -/
def construct (cfg : Config) (host : List HostMove) : Host.Outcome State Fault Refusal :=
  if cfg.spb = 0 then .refused .zeroSamplesPerBit else .next (State.resetWith cfg host)

/-- The command word the sequencer works on: `CMD` while `BUSY` (10_state.md R23), the offered word when `IDLE`
(R186), none when `IDLE` with nothing offered (R180). -/
def State.fetch (s : State) : Option Byte :=
  match s.st with
  | .busy => some s.cmd
  | .idle => s.offered.map Request.word

/-- A word that decodes to no command: refused when offered (60_exceptions.md R226). A `CMD` latch that holds one while
`BUSY` enables no step (log 11). -/
def badWord (w : Byte) (why : Reserved) (s : State) : Host.Outcome State Fault Refusal :=
  match s.st with
  | .idle => .refused (.reservedWord w why)
  | .busy => .fault .noStepEnabled

/-- Placing a command word where the next step finds it: the block is `IDLE` and the host offers that word, with the
operand sequences of the request it already offers, or empty ones (log 16). -/
def State.offerWord (w : Byte) (s : State) : State :=
  match s.host with
  | .request r :: rest => { s with st := .idle, host := .request { r with word := w } :: rest }
  | moves => { s with st := .idle, host := .request { word := w, text := [], bytes := [], bits := [] } :: moves }

/-! ### Accepting and completing a request -/

/-- The result sequences of a request are created empty when it starts, and the block keeps no copy of a result the host has
been given, of any unit: the earlier response stands no more (10_state.md R20, R32; 00_scope.md R6). DEDUCED, safe (logs 25,
27). -/
def State.freshResults (s : State) : State :=
  { s with bytesOut := [], bitsOut := [], waveOut := [], regOut := [], ended := none }

/-- The operand belongs to the host again: the block keeps none of the three operand sequences (10_state.md R20, R24;
00_scope.md R8). DEDUCED, safe (log 26). -/
def State.returnOperand (s : State) : State := { s with textIn := [], bytesIn := [], bitsIn := [] }

/-- What every accept does (10_state.md R32, R42): the request is taken from the host, `CMD` is latched, `ERR` is cleared, the
result sequences are created empty. -/
def State.accept (i : Instr) (s : State) : State := ({ s with cmd := encode i } : State).takeMove.clearErr.freshResults

/-- The end of the transaction of command `i`: `ST <- IDLE`, and the operand goes back to the host
(43_sampler_step_machine.md R184, R188; 10_state.md R24). From here until the next accept the response of `i` stands (log 27). -/
def State.complete (i : Instr) (s : State) : State := { s.returnOperand with st := .idle, ended := some i }

/-! ### The one exception -/

/-- Taking `InvalidInput(m)` (60_exceptions.md R215): `ERR <- 1`, `ERRMODE <- mode number`, `BYTES_OUT` empty,
`ST <- IDLE`. Nothing is saved and there is no return command (R216): `State.accept` of the next request clears `ERR`. -/
def State.raiseInvalidInput (m : Mode) (s : State) : State :=
  ({ s with bytesOut := [] } : State).setErr m |>.complete (.parse m)

end Sys2Proof.Machine
end

