-- ==== Sys2Proof/Machine/Operands.lean ====
section
/-! DEFINITION. The operand of each kind of command: its capacity and its hand-over (10_state.md R24, R25; 30_encoding.md R81). -/

namespace Sys2Proof.Machine

/-- Is a count within a bound? `none` is no bound (20_memory.md R65). -/
def withinBound (bound : Option Nat) (count : Nat) : Bool :=
  match bound with
  | none => true
  | some b => decide (count ≤ b)

/-- The capacity condition of 60_exceptions.md R227 for the operand, or the result, of a command. -/
def operandFits (cfg : Config) (i : Instr) (r : Request) : Bool :=
  match i.operand with
  | .text => withinBound cfg.maxText r.text.length
  | .bytes => withinBound cfg.maxBits (8 * r.bytes.length)
  | .bits => withinBound cfg.maxBits r.bits.length
  | .nothing => true

/-- The accept condition shared by every command: the host offers a request and its operand is within capacity (R186).
`act` is what the command then does. -/
def onAccept (i : Instr) (s : State) (act : Request → State → State) : Host.Outcome State Fault Refusal :=
  match s.offered with
  | none => .fault .noRequest
  | some r => if operandFits s.cfg i r then .next (act r (s.accept i)) else .refused .overCapacity

/-- Hand-over of a text: `TEXT_IN` (R24). -/
def State.latchText (t : Text) (s : State) : State := { s with textIn := t }

/-- Hand-over of a ByteSequence: `BYTES_IN` and `NBYTES` (R24, R25). -/
def State.latchBytes (b : List Byte) (s : State) : State := { s with bytesIn := b, nbytes := b.length }

/-- Hand-over of a BitSequence: `BITS_IN` and `NBITS` (R24, R25). -/
def State.latchBits (b : List Bit) (s : State) : State := { s with bitsIn := b, nbits := b.length }

end Sys2Proof.Machine
end

