-- ==== Sys2Proof/Machine/Extractor.lean ====
section
/-! DEFINITION. Unit BX: `EXTRACT` as a machine, one bit per step (41_bit_extractor.md R136). -/

namespace Sys2Proof.Machine

/-- Bit `i` of a byte, most significant first: `floor(v / 2^(7-i)) mod 2` (R131, 20_memory.md R53). -/
def bitOfByte (v : Byte) (i : Nat) : Bit := v.toNat / 2 ^ (7 - i) % 2 == 1

/-- The accept step (R136). -/
def State.acceptExtract (r : Request) (s : State) : State :=
  { s.latchBytes r.bytes with st := .busy, q := 0, bitsOut := [] }

/-- The bit step's write of one bit at position `Q` (R136). -/
def State.emitBit (b : Bit) (s : State) : State := { s with bitsOut := memWrite s.bitsOut b, q := s.q + 1 }

/-- The bit step, enabled while `Q < 8 * NBYTES`; it reads byte `floor(Q / 8)` (R131, R136). -/
def extractBit (s : State) : Host.Outcome State Fault Refusal :=
  match memRead s.bytesIn (s.q / 8) with
  | none => .fault .noStepEnabled
  | some v => .next (s.emitBit (bitOfByte v (s.q % 8)))

/-- `EXTRACT`: the accept step from `IDLE`; while `BUSY` the bit step, and the completion step when `Q = 8 * NBYTES`
(R130, R136). -/
def execExtract (s : State) : Host.Outcome State Fault Refusal :=
  match s.st with
  | .idle => onAccept .extract s State.acceptExtract
  | .busy =>
    if s.q < 8 * s.nbytes then extractBit s
    else if s.q = 8 * s.nbytes then .next (s.complete .extract)
    else .fault .noStepEnabled

end Sys2Proof.Machine
end

