-- ==== Sys2Proof/Machine/LineCode.lean ====
section
/-! DEFINITION. Unit LG: the level functions of the nine lanes (42_line_code_generators.md) and the sampler as a machine, one
sample per step (43_sampler_step_machine.md). -/

namespace Sys2Proof.Machine

/-! ### Levels and polarities -/

/-- The value of a level: -1, 0 or +1 (R143). -/
def Level.val : Level → Int
  | .neg => -1
  | .zero => 0
  | .pos => 1

/-- The 2-bit `LEVEL` field, two's complement (30_encoding.md R85). `0b10` is the code of no level. -/
def Level.code : Level → BitVec 2
  | .neg => 0b11
  | .zero => 0b00
  | .pos => 0b01

/-- The sample record as it stands at the port: `TIME`, and the `LEVEL` field (30_encoding.md R84, R85). -/
def Sample.port (x : Sample) : Nat × BitVec 2 := (x.time, x.level.code)

/-- `-POL` (R149). -/
def Polarity.flip : Polarity → Polarity
  | .minus => .plus
  | .plus => .minus

/-- The level a polarity stands for. -/
def Polarity.level : Polarity → Level
  | .minus => .neg
  | .plus => .pos

/-- The 2-bit two's complement register `POL` (10_state.md R38). -/
def Polarity.code (d : Polarity) : BitVec 2 := d.level.code

/-! ### Half-blocks and the nine level functions -/

/-- `H = floor(SPB / 2)` (R142). -/
abbrev halfOf (spb : Nat) : Nat := spb / 2

/-- `first(p)`: the phase is in the first half of the block (R142). -/
def firstHalf (spb p : Nat) : Bool := decide (p < halfOf spb)

/-- `LVL_NRZU` (R145). -/
def lvlNrzu (x : Bit) : Level := if x then .pos else .zero

/-- `LVL_NRZB` (R146). -/
def lvlNrzb (x : Bit) : Level := if x then .pos else .neg

/-- `LVL_RZU` (R147). -/
def lvlRzu (spb : Nat) (x : Bit) (p : Nat) : Level := if x && firstHalf spb p then .pos else .zero

/-- `LVL_RZB` (R148): the level is fixed at +1; in spite of the name there is no negative pulse (C5). -/
def lvlRzb (spb : Nat) (x : Bit) (p : Nat) : Level := if x && firstHalf spb p then .pos else .zero

/-- `LVL_AMI` (R149): `pol` is the polarity after the flip for this bit. -/
def lvlAmi (x : Bit) (pol : Polarity) : Level := if x then pol.level else .zero

/-- `LVL_MAN` (R150): a 1-bit is low then high, a 0-bit high then low. -/
def lvlMan (spb : Nat) (x : Bit) (p : Nat) : Level := if x == firstHalf spb p then .neg else .pos

/-- `LVL_MARK` (R151). -/
def lvlMark (x : Bit) : Level := if x then .pos else .zero

/-- `LVL_SPACE` (R152). -/
def lvlSpace (x : Bit) : Level := if x then .zero else .pos

/-- `LVL_CLK` (R153): the bit is ignored. -/
def lvlClk (spb p : Nat) : Level := if firstHalf spb p then .pos else .zero

/-- `LVL(s, x, p, pol)` (43_sampler_step_machine.md R183): the dispatch to the nine level functions. -/
def level (c : Scheme) (spb : Nat) (x : Bit) (p : Nat) (pol : Polarity) : Level :=
  match c with
  | .nrzu => lvlNrzu x
  | .nrzb => lvlNrzb x
  | .rzu => lvlRzu spb x p
  | .rzb => lvlRzb spb x p
  | .ami => lvlAmi x pol
  | .man => lvlMan spb x p
  | .mark => lvlMark x
  | .space => lvlSpace x
  | .clk => lvlClk spb p

/-! ### The sampler (43_sampler_step_machine.md) -/

/-- The accept step (R181): every working register of the sampler is initialised, `POL` to -1 for every scheme. -/
def State.acceptEnc (r : Request) (s : State) : State :=
  { s.latchBits r.bits with st := .busy, n := 0, p := 0, k := 0, pol := .minus, waveOut := [] }

/-- `POL` in force for the sample about to be emitted: AMI flips first, once per 1-bit, at phase 0 (R182). -/
def polFor (c : Scheme) (x : Bit) (p : Nat) (pol : Polarity) : Polarity :=
  if p = 0 ∧ c = .ami ∧ x = true then pol.flip else pol

/-- `P`, and `N` with it, move to the next phase (R182). -/
def State.advancePhase (s : State) : State :=
  if s.p + 1 < s.cfg.spb then { s with p := s.p + 1 } else { s with p := 0, n := s.n + 1 }

/-- One sample record `(K, LEVEL)` is written and the counters advance (R182). -/
def State.emitSample (v : Level) (s : State) : State :=
  ({ s with waveOut := memWrite s.waveOut { time := s.k, level := v }, k := s.k + 1 } : State).advancePhase

/-- The sample step's effect for bit `x` (R182). -/
def State.sample (c : Scheme) (x : Bit) (s : State) : State :=
  let pol := polFor c x s.p s.pol
  ({ s with pol := pol } : State).emitSample (level c s.cfg.spb x s.p pol)

/-- An `ENC` command: the accept step from `IDLE` (R181); while `BUSY` the sample step when `N < NBITS` (R182), the
completion step when `N = NBITS` (R184). -/
def encCommand (c : Scheme) (s : State) : Host.Outcome State Fault Refusal :=
  match s.st with
  | .idle => onAccept (.enc c) s State.acceptEnc
  | .busy =>
    if s.n < s.nbits then
      match memRead s.bitsIn s.n with
      | none => .fault .noStepEnabled
      | some x => .next (s.sample c x)
    else if s.n = s.nbits then .next (s.complete (.enc c))
    else .fault .noStepEnabled

/-- `ENC.NRZU` (R145). -/
def execEncNrzu (s : State) : Host.Outcome State Fault Refusal := encCommand .nrzu s

/-- `ENC.NRZB` (R146). -/
def execEncNrzb (s : State) : Host.Outcome State Fault Refusal := encCommand .nrzb s

/-- `ENC.RZU` (R147). -/
def execEncRzu (s : State) : Host.Outcome State Fault Refusal := encCommand .rzu s

/-- `ENC.RZB` (R148). -/
def execEncRzb (s : State) : Host.Outcome State Fault Refusal := encCommand .rzb s

/-- `ENC.AMI` (R149). -/
def execEncAmi (s : State) : Host.Outcome State Fault Refusal := encCommand .ami s

/-- `ENC.MAN` (R150). -/
def execEncMan (s : State) : Host.Outcome State Fault Refusal := encCommand .man s

/-- `ENC.MARK` (R151). -/
def execEncMark (s : State) : Host.Outcome State Fault Refusal := encCommand .mark s

/-- `ENC.SPACE` (R152). -/
def execEncSpace (s : State) : Host.Outcome State Fault Refusal := encCommand .space s

/-- `ENC.CLK` (R153). -/
def execEncClk (s : State) : Host.Outcome State Fault Refusal := encCommand .clk s

end Sys2Proof.Machine
end

