-- ==== Sys2Proof/Machine/Parser.lean ====
section
/-! DEFINITION. Unit VP: `PARSE.INT`, `PARSE.HEX`, `PARSE.BIN` (40_value_parser.md). -/

namespace Sys2Proof.Machine

/-! ### Digits and numbers -/

/-- The value of an ASCII hexadecimal digit of either case (20_memory.md R54); no other character has one. -/
def hexVal? (c : Char) : Option Nat :=
  if '0' ≤ c ∧ c ≤ '9' then some (c.toNat - 48)
  else if 'a' ≤ c ∧ c ≤ 'f' then some (c.toNat - 87)
  else if 'A' ≤ c ∧ c ≤ 'F' then some (c.toNat - 55)
  else none

/-- The value of a digit of base 2, 8, 10 or 16 (R102: `bindigit`, `octdigit`, `digit`, `hexdigit`). -/
def digitVal? (base : Nat) (c : Char) : Option Nat := (hexVal? c).filter fun v => decide (v < base)

/-- The natural number whose base-`base` digits are the list, most significant first; the empty list has value 0
(00_scope.md R13, `val`). -/
def valBase (base : Nat) (ds : List Nat) : Nat := ds.foldl (fun acc d => acc * base + d) 0

/-- The value of a non-empty string of digits of one base (R102, R103). -/
def digitsVal? (base : Nat) (t : Text) : Option Nat :=
  if t = [] then none else (t.mapM (digitVal? base)).map (valBase base)

/-- The base that the letter of a literal's `0x`, `0o` or `0b` selects, of either case (R102). -/
def baseOfLetter (c : Char) : Option Nat :=
  if c = 'x' ∨ c = 'X' then some 16 else if c = 'o' ∨ c = 'O' then some 8 else if c = 'b' ∨ c = 'B' then some 2 else none

/-- `magnitude` of `G_INT` with its value `mag` (R102, R103): `0`, a decimal that starts with 1 to 9, or a letter-marked literal. -/
def magnitude? (t : Text) : Option Nat :=
  match t with
  | [] => none
  | c :: rest =>
    if c = '0' then
      match rest with
      | [] => some 0
      | letter :: ds => match baseOfLetter letter with
        | some base => digitsVal? base ds
        | none => none
    else digitsVal? 10 t

/-- `intval` on the texts that match `G_INT`, none on the others (R102, R103). -/
def intLiteral? (t : Text) : Option Int :=
  match t with
  | [] => none
  | c :: rest => if c = '-' then (magnitude? rest).map fun (v : Nat) => -(v : Int)
    else (magnitude? t).map fun (v : Nat) => (v : Int)

/-- A text without the characters a relaxation allows around the literal (R106; log 4). -/
def trimText (r : Relaxation) (t : Text) : Text :=
  ((t.dropWhile fun c => decide (c ∈ r.around)).reverse.dropWhile fun c => decide (c ∈ r.around)).reverse

/-- A text without its `+` sign, where a relaxation allows one; a second sign after it is left for the grammar to reject
(R106; log 4). -/
def dropPlus (r : Relaxation) (t : Text) : Text :=
  match t with
  | [] => []
  | c :: rest => if r.plus = true ∧ c = '+' ∧ rest.head? ≠ some '-' then rest else t

/-- Does the text start with a digit? -/
def startsWithDigit (t : Text) : Bool := (t.head?.bind hexVal?).isSome

/-- A text without the separators a relaxation allows, each between two digits; `afterDigit` says that the character before
the text is a digit (R106; log 4). -/
def dropSeparators (r : Relaxation) (afterDigit : Bool) (t : Text) : Text :=
  match t with
  | [] => []
  | c :: rest =>
    if c ∈ r.separators ∧ afterDigit = true ∧ startsWithDigit rest = true then dropSeparators r false rest
    else c :: dropSeparators r (hexVal? c).isSome rest

/-- The literal in a relaxed text: what the relaxation allows is taken away, from the outside in (R106; log 4). -/
def relaxedText (r : Relaxation) (t : Text) : Text := dropSeparators r false (dropPlus r (trimText r t))

/-- `INT_EXT`: the instance's answer for a text outside `G_INT`; `none` is `invalid`, which every setting answers for the
empty text (R106; log 4). A relaxed setting reads by `G_INT` what `relaxedText` leaves. -/
def intExt? (cfg : Config) (t : Text) : Option Int :=
  if t = [] then none
  else match cfg.intExt with
    | .invalid => none
    | .listed table => table.lookup t
    | .relaxed r => intLiteral? (relaxedText r t)
    | .other setting => Config.intExtOther setting t

/-! ### Serialisation -/

/-- `bitlen` (20_memory.md R52). -/
def bitLen (n : Nat) : Nat := if n = 0 then 0 else Nat.log2 n + 1

/-- The minimal big-endian byte sequence of a value, one zero byte for 0 (R52, R105). -/
def bytesOfNat (v : Nat) : List Byte :=
  let len := max 1 ((bitLen v + 7) / 8)
  (List.range len).map fun j => BitVec.ofNat 8 (v / 256 ^ (len - 1 - j))

/-- Digits to bytes: the list is cut from the left into groups of `per` digits, each read most significant first (R54, R55).
The list's length is a multiple of `per`. -/
def packDigits (base per : Nat) (ds : List Nat) : List Byte :=
  (List.range (ds.length / per)).map fun j => BitVec.ofNat 8 (valBase base ((ds.drop (per * j)).take per))

/-- Padding on the left with 0 digits up to the next multiple of `per` digits (R110, R113). -/
def padLeft (per : Nat) (ds : List Nat) : List Nat := List.replicate ((ds.length + per - 1) / per * per - ds.length) 0 ++ ds

/-- The stripping parsers: digits of the base are kept in order, every other character is dropped, none left is an error
(R109, R112). -/
def parseStripped (base per : Nat) (t : Text) : Option (List Byte) :=
  let ds := t.filterMap (digitVal? base)
  if ds = [] then none else some (packDigits base per (padLeft per ds))

/-! ### The three parsers; `none` is `InvalidInput` -/

/-- Integer mode (R101): literal, else `INT_EXT`; negative values are rejected (R104); then serialisation (R105). -/
def parseIntText (cfg : Config) (t : Text) : Option (List Byte) :=
  match (intLiteral? t).or (intExt? cfg t) with
  | none => none
  | some v => if v < 0 then none else some (bytesOfNat v.toNat)

/-- Hex Bytes mode (R109): pairs of hexadecimal digits, an odd count padded with one 0 in front (R110). -/
def parseHexText (_cfg : Config) (t : Text) : Option (List Byte) := parseStripped 16 2 t

/-- Binary mode (R112): groups of eight binary digits, padded with zeros in front (R113). -/
def parseBinText (_cfg : Config) (t : Text) : Option (List Byte) := parseStripped 2 8 t

/-! ### The commands -/

/-- A `PARSE` command is one atomic step from `IDLE` to the complete response (R118): the bytes with `ERR = 0`, or
`InvalidInput(m)` (R115, R116). There is no step of it while `BUSY`. -/
def parseCommand (i : Instr) (m : Mode) (parse : Config → Text → Option (List Byte)) (s : State) :
    Host.Outcome State Fault Refusal :=
  match s.st with
  | .busy => .fault .noStepEnabled
  | .idle => onAccept i s fun r s =>
    let s := s.latchText r.text
    match parse s.cfg s.textIn with
    | none => s.raiseInvalidInput m
    | some bytes => ({ s with bytesOut := bytes } : State).clearErr.complete i

/-- `PARSE.INT` (R101). -/
def execParseInt (s : State) : Host.Outcome State Fault Refusal := parseCommand .parseInt .integer parseIntText s

/-- `PARSE.HEX` (R109). -/
def execParseHex (s : State) : Host.Outcome State Fault Refusal := parseCommand .parseHex .hexBytes parseHexText s

/-- `PARSE.BIN` (R112). -/
def execParseBin (s : State) : Host.Outcome State Fault Refusal := parseCommand .parseBin .binary parseBinText s

end Sys2Proof.Machine
end

