-- ==== Sys2Proof/Machine/Registry.lean ====
section
/-! DEFINITION. The scheme registry: `SCHEMES` (44_registry_and_composites.md R200). -/

namespace Sys2Proof.Machine

/-- The display name of a scheme: the Scheme column of the source's table (R202, D20). -/
def displayName : Scheme → String
  | .nrzu => "NRZ-Unipolar"
  | .nrzb => "NRZ-Bipolar"
  | .rzu => "RZ-Unipolar"
  | .rzb => "RZ-Bipolar"
  | .ami => "AMI"
  | .man => "Manchester"
  | .mark => "MARK"
  | .space => "SPACE"
  | .clk => "Clock"

/-- The registry, a constant, in the order of the source's table (R200, R201). -/
def registry : List RegEntry := Scheme.all.map fun c => { name := displayName c, id := c.num }

/-- `SCHEMES`: one atomic step from `IDLE` to the complete response (R200). -/
def execSchemes (s : State) : Host.Outcome State Fault Refusal :=
  match s.st with
  | .busy => .fault .noStepEnabled
  | .idle => onAccept .schemes s fun _ s => ({ s with regOut := registry } : State).clearErr.complete .schemes

end Sys2Proof.Machine
end

