-- ==== Sys2Proof/Machine/Dispatch.lean ====
section
/-! DEFINITION. The meaning of each command: one arm per constructor of Instr. -/

namespace Sys2Proof.Machine

/-- The next step of command `i`: its accept step from `IDLE`, its bit, sample or completion step while `BUSY`. -/
def exec (i : Instr) (s : State) : Host.Outcome State Fault Refusal :=
  match i with
  | .parseInt => Sys2Proof.Machine.execParseInt s
  | .parseHex => Sys2Proof.Machine.execParseHex s
  | .parseBin => Sys2Proof.Machine.execParseBin s
  | .extract => Sys2Proof.Machine.execExtract s
  | .encNrzu => Sys2Proof.Machine.execEncNrzu s
  | .encNrzb => Sys2Proof.Machine.execEncNrzb s
  | .encRzu => Sys2Proof.Machine.execEncRzu s
  | .encRzb => Sys2Proof.Machine.execEncRzb s
  | .encAmi => Sys2Proof.Machine.execEncAmi s
  | .encMan => Sys2Proof.Machine.execEncMan s
  | .encMark => Sys2Proof.Machine.execEncMark s
  | .encSpace => Sys2Proof.Machine.execEncSpace s
  | .encClk => Sys2Proof.Machine.execEncClk s
  | .schemes => Sys2Proof.Machine.execSchemes s

end Sys2Proof.Machine
end

