-- ==== Sys2Proof/Machine/Step.lean ====
section
/-! DEFINITION. One step of the machine (43_sampler_step_machine.md R180, R186, R187). -/

namespace Sys2Proof.Machine

/-- One step: no instance with `SPB = 0` exists (R228); an asserted reset comes before anything else (R244, log 12); else
the sequencer runs the next step of the command it works on, or, `IDLE` with nothing offered, does nothing
(60_exceptions.md R231, log 8). -/
def step (s : State) : Host.Outcome State Fault Refusal :=
  if s.cfg.spb = 0 then .refused .zeroSamplesPerBit
  else if s.resetAsserted then .next s.takeReset
  else match s.fetch with
    | none => .next s.passWait
    | some w => match decode w with
      | .instr i => exec i s.passWait
      | .reserved why => badWord w why s

/-- The state with a command word placed where the next step finds it (log 16). -/
def State.withFetchWord (s : State) (_nbits w : Nat) : State := s.offerWord (BitVec.ofNat 8 w)

end Sys2Proof.Machine
end

