-- ==== Sys2Proof/Machine/Response.lean ====
section
/-! DEFINITION. The response the host takes when a request has ended (30_encoding.md R83, R87, R88). -/

namespace Sys2Proof.Machine

/-- A response: a result sequence, or the error record that carries the mode and nothing else (R83, R87). -/
inductive Response where
  | bytes (b : List Byte)
  | invalidInput (m : Mode)
  | bits (b : List Bit)
  | wave (w : List Sample)
  | registry (l : List RegEntry)
  deriving DecidableEq, Repr

/-- The response to a `PARSE`: the error of `ERRMODE` when `ERR = 1`, else the bytes (R83). `ERRMODE` 3 is no mode. -/
def parseResponse (s : State) : Option Response :=
  if s.err then (Mode.ofNum s.errMode.toNat).map .invalidInput else some (.bytes s.bytesOut)

/-- Where the result of command `i` stands: the sequence of its unit, or for a `PARSE` the error in its place (R83). -/
def resultOf (i : Instr) (s : State) : Option Response :=
  match i with
  | .parseInt => parseResponse s
  | .parseHex => parseResponse s
  | .parseBin => parseResponse s
  | .extract => some (.bits s.bitsOut)
  | .encNrzu => some (.wave s.waveOut)
  | .encNrzb => some (.wave s.waveOut)
  | .encRzu => some (.wave s.waveOut)
  | .encRzb => some (.wave s.waveOut)
  | .encAmi => some (.wave s.waveOut)
  | .encMan => some (.wave s.waveOut)
  | .encMark => some (.wave s.waveOut)
  | .encSpace => some (.wave s.waveOut)
  | .encClk => some (.wave s.waveOut)
  | .schemes => some (.registry s.regOut)

/-- What the host takes as the response to a request of command `i`. There is one only while the block is idle after that
request has ended: none while `BUSY`, since no partial result is one (43_sampler_step_machine.md R191), none after a reset
(70_reset_and_hazards.md R244), none once the next request is accepted (10_state.md R32). It is a view of the registers, not
a store (log 27). -/
def responseOf (i : Instr) (s : State) : Option Response :=
  match s.st with
  | .busy => none
  | .idle => if s.ended = some i then resultOf i s else none

end Sys2Proof.Machine
end

