-- ==== Sys2Proof/Machine/Composite.lean ====
section
/-! DEFINITION. Whole requests, and the host's two expansions `ENC.ALL` and `RENDER` (44_registry_and_composites.md). -/

namespace Sys2Proof.Machine

/-- `k` steps, stopping at the first fault or refusal. -/
def runSteps : Nat → State → Host.Outcome State Fault Refusal
  | 0, s => .next s
  | k + 1, s =>
    match step s with
    | .next t => runSteps k t
    | .fault f => .fault f
    | .refused r => .refused r

/-- The request `PARSE.<mode> text` (R81). -/
def Request.parse (m : Mode) (t : Text) : Request := { word := encode (.parse m), text := t, bytes := [], bits := [] }

/-- The request `EXTRACT bytes` (R81). -/
def Request.extract (b : List Byte) : Request := { word := encode .extract, text := [], bytes := b, bits := [] }

/-- The request `ENC.<scheme> bits` (R81). -/
def Request.enc (c : Scheme) (b : List Bit) : Request := { word := encode (.enc c), text := [], bytes := [], bits := b }

/-- The request `SCHEMES` (R81). -/
def Request.schemes : Request := { word := encode .schemes, text := [], bytes := [], bits := [] }

/-- How many steps a request takes: one for the atomic commands (R118, R200), accept, `8 * NBYTES` bit steps and
completion for `EXTRACT` (R136), accept, `NBITS * SPB` sample steps and completion for `ENC` (R185). -/
def requestSteps (cfg : Config) (i : Instr) (r : Request) : Nat :=
  match i.operand with
  | .text => 1
  | .bytes => 8 * r.bytes.length + 2
  | .bits => r.bits.length * cfg.spb + 2
  | .nothing => 1

/-- One transaction: the host offers the one request `r` for command `i` and waits until it has ended (R186 to R188). -/
def transact (i : Instr) (r : Request) (s : State) : Host.Outcome State Fault Refusal :=
  runSteps (requestSteps s.cfg i r) { s with host := [.request r] }

/-- The host issues one `ENC` request per scheme of the list and collects the Waveforms (R203). -/
def encEach (bits : List Bit) : List Scheme → State → Host.Outcome (List (List Sample) × State) Fault Refusal
  | [], s => .next ([], s)
  | c :: rest, s =>
    match transact (.enc c) (Request.enc c bits) s with
    | .fault f => .fault f
    | .refused r => .refused r
    | .next t =>
      match encEach bits rest t with
      | .fault f => .fault f
      | .refused r => .refused r
      | .next (ws, u) => .next (t.waveOut :: ws, u)

/-- `ENC.ALL bits`: the nine `ENC` requests in registry order (30_encoding.md R94, R203). -/
def encAll (bits : List Bit) (s : State) : Host.Outcome (List (List Sample) × State) Fault Refusal :=
  encEach bits Scheme.all s

/-- What a `RENDER` gives the host: the error of the parser, or nine Waveforms (R204). -/
inductive Rendered where
  | invalidInput (m : Mode)
  | waves (w : List (List Sample))
  deriving DecidableEq, Repr

/-- `RENDER.<mode> text`: `PARSE`; on `InvalidInput` nothing else is issued; else `EXTRACT` of the bytes and `ENC.ALL` of
the bits (R204). -/
def render (m : Mode) (t : Text) (s : State) : Host.Outcome (Rendered × State) Fault Refusal :=
  match transact (.parse m) (Request.parse m t) s with
  | .fault f => .fault f
  | .refused r => .refused r
  | .next s1 =>
    if s1.err then .next (.invalidInput m, s1)
    else
      match transact .extract (Request.extract s1.bytesOut) s1 with
      | .fault f => .fault f
      | .refused r => .refused r
      | .next s2 =>
        match encAll s2.bitsOut s2 with
        | .fault f => .fault f
        | .refused r => .refused r
        | .next (ws, s3) => .next (.waves ws, s3)

end Sys2Proof.Machine
end

