-- ==== Sys2Proof/Machine/Functional.lean ====
section
/-! DEFINITION. The three operations as functions from a whole operand to a whole result: the normative form of
40_value_parser.md, 41_bit_extractor.md and 42_line_code_generators.md, which the step machine is held against. -/

namespace Sys2Proof.Machine

/-- `parse(text, mode)` of an instance; `none` is `InvalidInput(mode)` (R100). -/
def parseText (cfg : Config) (m : Mode) (t : Text) : Option (List Byte) :=
  match m with
  | .integer => parseIntText cfg t
  | .hexBytes => parseHexText cfg t
  | .binary => parseBinText cfg t

/-- `val2` of a BitSequence: the first bit is the most significant (00_scope.md R13, 20_memory.md R57). -/
def valBits (b : List Bit) : Nat := valBase 2 (b.map Bool.toNat)

/-- `extractBits(bytes)`: the eight bits of each byte, most significant first, bytes in order (R130). -/
def extractBits (b : List Byte) : List Bit := b.flatMap fun v => (List.range 8).map (bitOfByte v)

/-- One bit block: the level of each phase (R141). -/
def bitBlock (spb : Nat) (lvl : Nat → Level) : List Level := (List.range spb).map lvl

/-- The AMI fold (R149, R154): on a 1-bit the polarity flips first, then the whole block is at the new polarity. -/
def amiLevels (spb : Nat) (pol : Polarity) : List Bit → List Level
  | [] => []
  | true :: bits => bitBlock spb (fun _ => lvlAmi true pol.flip) ++ amiLevels spb pol.flip bits
  | false :: bits => bitBlock spb (fun _ => lvlAmi false pol) ++ amiLevels spb pol bits

/-- The `level` sequence of `encode(scheme, bits)`: for AMI the fold from polarity -1, for every other scheme block by block (R144, R149). -/
def encodeLevels (c : Scheme) (spb : Nat) (bits : List Bit) : List Level :=
  if c = .ami then amiLevels spb .minus bits else bits.flatMap fun x => bitBlock spb fun p => level c spb x p .minus

/-- A `level` sequence as sample records: sample `k` carries `TIME = k` (30_encoding.md R84, R86). -/
def stamp (levels : List Level) : List Sample := levels.zipIdx.map fun e => { time := e.2, level := e.1 }

/-- `encode(scheme, bits)`: the whole Waveform (R140, R144). -/
def encodeWave (c : Scheme) (spb : Nat) (bits : List Bit) : List Sample := stamp (encodeLevels c spb bits)

/-- The `time` sequence of a Waveform: the exact rational `k / SPB` of each sample (20_memory.md R58, 30_encoding.md R86). -/
def timesOf (spb : Nat) (wave : List Sample) : List Rat := wave.map fun x => (x.time : Rat) / (spb : Rat)

/-- The `level` sequence of a Waveform (30_encoding.md R84). -/
def levelsOf (wave : List Sample) : List Level := wave.map Sample.level

end Sys2Proof.Machine
end

