-- ==== Sys2Proof/Machine/Grammar.lean ====
section
/-! DEFINITION. The grammar `G_INT` of 40_value_parser.md R102 production by production, with the values of R103: what
`intLiteral?` is held against. -/

namespace Sys2Proof.Machine

/-- Character `c` is the digit of value `v` in base `base`: `0` to `9`, then `a` to `f` or `A` to `F` (R102, R103). -/
def IsDigit (base : Nat) (c : Char) (v : Nat) : Prop :=
  v < base ∧ v < 16 ∧
    ((v < 10 ∧ c.toNat = '0'.toNat + v) ∨ (10 ≤ v ∧ (c.toNat + 10 = 'a'.toNat + v ∨ c.toNat + 10 = 'A'.toNat + v)))

/-- A non-empty string of digits of a base, with its value (`digit+` and `val` of R102, R103). -/
inductive Digits (base : Nat) : Text → Nat → Prop where
  | one {c v} : IsDigit base c v → Digits base [c] v
  | snoc {t a c v} : Digits base t a → IsDigit base c v → Digits base (t ++ [c]) (a * base + v)

/-- The productions `decimal`, `hexlit`, `octlit`, `binlit` of R102. -/
inductive Magnitude : Text → Nat → Prop where
  | zero : Magnitude ['0'] 0
  | decimal {c t v} : c ≠ '0' → Digits 10 (c :: t) v → Magnitude (c :: t) v
  | hexlit {c t v} : c = 'x' ∨ c = 'X' → Digits 16 t v → Magnitude ('0' :: c :: t) v
  | octlit {c t v} : c = 'o' ∨ c = 'O' → Digits 8 t v → Magnitude ('0' :: c :: t) v
  | binlit {c t v} : c = 'b' ∨ c = 'B' → Digits 2 t v → Magnitude ('0' :: c :: t) v

/-- `G_INT := sign? magnitude`, with `intval` (R102, R103). -/
inductive GInt : Text → Int → Prop where
  | unsigned {t v} : Magnitude t v → GInt t (v : Int)
  | signed {t v} : Magnitude t v → GInt ('-' :: t) (-(v : Int))

/-- The characters Hex Bytes mode keeps: 0 to 9, a to f, A to F (R109). -/
def hexChars : List Char :=
  ['0', '1', '2', '3', '4', '5', '6', '7', '8', '9', 'a', 'b', 'c', 'd', 'e', 'f', 'A', 'B', 'C', 'D', 'E', 'F']

/-- The characters Binary mode keeps (R112). -/
def binChars : List Char := ['0', '1']

/-- `ds` are the digit values of the characters of `t` that the mode keeps, in the text's order (R109, R112). -/
def KeptDigits (base : Nat) (keep : List Char) (t : Text) (ds : List Nat) : Prop :=
  List.Forall₂ (IsDigit base) (t.filter fun c => decide (c ∈ keep)) ds

end Sys2Proof.Machine
end

