-- ==== Sys2Proof/Safety.lean ====
section
/-! DEFINITION. What a legal state of the block is, and when its steps are enabled, in the terms claims use. -/

namespace Sys2Proof.Machine

/-- The legal values of every register, at every moment (the table of 10_state.md R38), the word in `CMD` among them. -/
structure Legal (s : State) : Prop where
  spb     : 1 ≤ s.cfg.spb
  cmd     : reservedWord s.cmd = false
  nbytes  : withinBound s.cfg.maxBits (8 * s.nbytes) = true
  nbits   : withinBound s.cfg.maxBits s.nbits = true
  q       : s.q ≤ 8 * s.nbytes
  n       : s.n ≤ s.nbits
  p       : s.p < s.cfg.spb
  k       : s.k ≤ s.nbits * s.cfg.spb
  errMode : s.errMode.toNat ≤ 2

/-- The reset column of the table of 10_state.md R38, for the registers to which it gives a value: all but `SPB`, `CMD` and
`ERRMODE` (70_reset_and_hazards.md R241). -/
structure InResetState (s : State) : Prop where
  st       : s.st = .idle
  err      : s.err = false
  q        : s.q = 0
  n        : s.n = 0
  p        : s.p = 0
  k        : s.k = 0
  nbytes   : s.nbytes = 0
  nbits    : s.nbits = 0
  pol      : s.pol = .minus
  textIn   : s.textIn = []
  bytesIn  : s.bytesIn = []
  bitsIn   : s.bitsIn = []
  bytesOut : s.bytesOut = []
  bitsOut  : s.bitsOut = []
  waveOut  : s.waveOut = []
  regOut   : s.regOut = []

/-- The bits whose blocks have begun: `BITS_IN[0 .. N)`, and bit `N` itself when `P > 0` (10_state.md R41). -/
def State.begunBits (s : State) : List Bit := s.bitsIn.take (if 0 < s.p then s.n + 1 else s.n)

/-- The polarity AMI is at after the given bits: +1 exactly when the number of 1-bits is odd (R41, R154). -/
def polAfter (bits : List Bit) : Polarity := if bits.count true % 2 = 1 then .plus else .minus

/-- The invariant of a running `ENC` request of scheme `c` (10_state.md R41); the lanes other than AMI leave `POL` at -1. -/
structure EncRunning (c : Scheme) (s : State) : Prop where
  nbits    : s.nbits = s.bitsIn.length
  n        : s.n ≤ s.nbits
  p        : s.p < s.cfg.spb
  k        : s.k = s.n * s.cfg.spb + s.p
  atEnd    : s.n = s.nbits → s.p = 0
  wave     : s.waveOut.length = s.k
  times    : s.waveOut.map Sample.time = List.range s.k
  pol      : s.pol = if c = .ami then polAfter s.begunBits else .minus

/-- The invariant of a running `EXTRACT` request (10_state.md R41). -/
structure ExtractRunning (s : State) : Prop where
  nbytes  : s.nbytes = s.bytesIn.length
  q       : s.q ≤ 8 * s.nbytes
  bitsOut : s.bitsOut.length = s.q

/-- While `BUSY` the running command is `EXTRACT` or an `ENC` (R118, R188: the two others are never left busy). -/
def BusyWell (s : State) : Prop :=
  (s.cmd = encode .extract ∧ ExtractRunning s) ∨ ∃ c, s.cmd = encode (.enc c) ∧ EncRunning c s

/-- The block holds no operand sequence but that of a command of the given operand kind (10_state.md R24; 00_scope.md R8). -/
structure OnlyOperand (kind : OperandKind) (s : State) : Prop where
  textIn  : kind ≠ .text → s.textIn = []
  bytesIn : kind ≠ .bytes → s.bytesIn = []
  bitsIn  : kind ≠ .bits → s.bitsIn = []

/-- The block holds no result sequence but that of a command of the given operand kind (10_state.md R32; 00_scope.md R6). -/
structure OnlyResult (kind : OperandKind) (s : State) : Prop where
  bytesOut : kind ≠ .text → s.bytesOut = []
  bitsOut  : kind ≠ .bytes → s.bitsOut = []
  waveOut  : kind ≠ .bits → s.waveOut = []
  regOut   : kind ≠ .nothing → s.regOut = []

/-- No operand is held: the host has it back (10_state.md R24). -/
structure NoOperand (s : State) : Prop where
  textIn  : s.textIn = []
  bytesIn : s.bytesIn = []
  bitsIn  : s.bitsIn = []

/-- The invariant of the machine: legal registers, a well-formed running request, and an error that only an idle block
shows, with no bytes beside it (10_state.md R30, R38, R41; 60_exceptions.md R215). The block holds the operand and the result
of one command at most, and no operand when idle (10_state.md R20, R24, R32); an error is that of the `PARSE` that ended last
(R30), and a response stands only when idle (43_sampler_step_machine.md R191). What it says of `CMD` and `ERRMODE` after
reset, of the working registers of an ended request, of `ended`, of `ERRMODE` while `ERR` is 0 and of the emptied sequences
is the model's choice (logs 5, 6, 9, 10, 25, 26, 27). -/
structure StateInv (s : State) : Prop where
  legal : Legal s
  busy  : s.st = .busy → BusyWell s
  err   : s.err = true → s.st = .idle ∧ s.bytesOut = [] ∧ ∃ m, s.ended = some (.parse m) ∧ s.errMode.toNat = m.num
  ended : ∀ i, s.ended = some i → s.st = .idle ∧ s.cmd = encode i
  held  : ∃ i, s.cmd = encode i ∧ OnlyOperand i.operand s ∧ OnlyResult i.operand s
  idle  : s.st = .idle → NoOperand s

/-- The block is `IDLE`, an instance, and its host offers `r`, whose operand is within capacity for command `i`: the
condition under which the accept step of `i` is enabled (43_sampler_step_machine.md R181, R186). -/
structure Accepts (i : Instr) (r : Request) (rest : List HostMove) (s : State) : Prop where
  spb   : 1 ≤ s.cfg.spb
  idle  : s.st = .idle
  offer : s.host = .request r :: rest
  fits  : operandFits s.cfg i r = true

/-- The sample step is enabled and `x` is the bit it reads (R182). -/
structure AtSample (x : Bit) (s : State) : Prop where
  spb  : 1 ≤ s.cfg.spb
  busy : s.st = .busy
  more : s.n < s.nbits
  bit  : s.bitsIn[s.n]? = some x

/-- What the sample step leaves when it writes level `v` at index `K` and leaves `pol` in `POL` (R182). -/
def State.withSample (v : Level) (pol : Polarity) (s : State) : State :=
  { s with
    pol := pol
    waveOut := s.waveOut ++ [{ time := s.k, level := v }]
    k := s.k + 1
    p := if s.p + 1 < s.cfg.spb then s.p + 1 else 0
    n := if s.p + 1 < s.cfg.spb then s.n else s.n + 1 }

/-- The bit or sample steps a running request still has before its completion step (41_bit_extractor.md R136, R185). -/
def State.stepsLeft (s : State) : Nat :=
  if s.cmd = encode .extract then 8 * s.nbytes - s.q else s.nbits * s.cfg.spb - s.k

/-- The host does not assert reset in these moves. -/
abbrev ResetFree (moves : List HostMove) : Prop := HostMove.reset ∉ moves

end Sys2Proof.Machine
end

