-- ==== Sys2Proof/Certificates/Slice0/Obligations.lean ====
section
/-! DEFINITION. The statements about the model.

Where a statement gives a whole next state, the registers that the rule's effect does not write are as they were: the rule's
effect lists what it writes, and 10_state.md R42 and R38 say which command writes which register. That a register keeps its
value where the spec lets it hold any value (the working registers of a request that has ended, R43; `ERRMODE` while `ERR` is
0, R30) is the model's choice, logs 9 and 10. Every accept creates all four result sequences empty (`State.freshResults`), and
the end of a request gives its operand back (`State.returnOperand`): logs 25 and 26, from R20, R24 and R32. `ended` says whose
response stands: log 27. -/

open Sys2Proof Sys2Proof.Machine

/-! ### The command word -/

/-- The opcode map (30_encoding.md section 3): the fourteen words with their operand kinds, and no other word a command. -/
def Obligations.FourteenWordsDecode : Prop :=
  (∀ e ∈ ([(0x00, .parseInt, .text), (0x01, .parseHex, .text), (0x02, .parseBin, .text), (0x10, .extract, .bytes),
      (0x20, .encNrzu, .bits), (0x21, .encNrzb, .bits), (0x22, .encRzu, .bits), (0x23, .encRzb, .bits),
      (0x24, .encAmi, .bits), (0x25, .encMan, .bits), (0x26, .encMark, .bits), (0x27, .encSpace, .bits),
      (0x28, .encClk, .bits), (0x30, .schemes, .nothing)] : List (Byte × Instr × OperandKind)),
    decode e.1 = .instr e.2.1 ∧ e.2.1.operand = e.2.2) ∧
  ((List.range 256).filter fun w => (decode (BitVec.ofNat 8 w)).toOption.isSome).length = 14

/-- Decoding and encoding are inverse on the commands and on their words (30_encoding.md section 5, decoding). -/
def Obligations.DecodeEncodeAgree : Prop :=
  (∀ i : Instr, i.wf = true → decode (encode i) = .instr i) ∧ ∀ w i, decode w = .instr i → encode i = w

/-- R89: which words are reserved, that they are 242, and that an idle block refuses one with no other effect. -/
def Obligations.ReservedWordsRefused : Prop :=
  (∀ w : Byte, (∃ why, decode w = .reserved why) ↔
    (4 ≤ (opField w).toNat ∨ (opField w = 0 ∧ 3 ≤ (selField w).toNat) ∨ (opField w = 1 ∧ selField w ≠ 0) ∨
      (opField w = 2 ∧ 9 ≤ (selField w).toNat) ∨ (opField w = 3 ∧ selField w ≠ 0))) ∧
  ((List.range 256).filter fun w => (decode (BitVec.ofNat 8 w)).toOption.isNone).length = 242 ∧
  (∀ s r rest why, 1 ≤ s.cfg.spb → s.st = .idle → s.host = .request r :: rest → decode r.word = .reserved why →
    step s = .refused (.reservedWord r.word why))

/-! ### The step -/

/-- A step runs the decoded command: the offered one when `IDLE`, the one in `CMD` while `BUSY` (43_sampler_step_machine.md
section 2). That a host may hold out a request while the block is `BUSY`, which the step leaves where it is, and that a host
that waits uses up that move, is the model's choice, log 1: R187 gives a host no move while `BUSY`. -/
def Obligations.StepRunsDecodedCommand : Prop :=
  (∀ s r rest i, 1 ≤ s.cfg.spb → s.st = .idle → s.host = .request r :: rest → decode r.word = .instr i →
    step s = exec i s) ∧
  (∀ s i, 1 ≤ s.cfg.spb → s.st = .busy → (∀ rest, s.host ≠ .reset :: rest ∧ s.host ≠ .wait :: rest) →
    decode s.cmd = .instr i → step s = exec i s) ∧
  (∀ s rest i, 1 ≤ s.cfg.spb → s.st = .busy → s.host = .wait :: rest → decode s.cmd = .instr i →
    step s = exec i { s with host := rest })

/-- The model's choice of log 8: with nothing offered an idle block does nothing. -/
def Obligations.IdleBlockDoesNothing : Prop :=
  (∀ s, 1 ≤ s.cfg.spb → s.st = .idle → s.host = [] → step s = .next s) ∧
  (∀ s rest, 1 ≤ s.cfg.spb → s.st = .idle → s.host = .wait :: rest → step s = .next { s with host := rest })

/-- The state after reset (R241), whatever the block was doing, a request under way included; `State.reset` is in it too. That
a reset takes the place of one step, and that the host's later moves stay, is the model's: logs 12 and 1. -/
def Obligations.ResetLeavesTheResetState : Prop :=
  (∀ s rest, 1 ≤ s.cfg.spb → s.host = .reset :: rest →
    ∃ t, step s = .next t ∧ InResetState t ∧ t.cfg = s.cfg ∧ t.host = rest) ∧
  InResetState State.reset

/-- The model's choice of log 24: a new instance has the register values of the state after reset, before any reset. (The
spec gives it `ST = IDLE` and its `SPB`, 70_reset_and_hazards.md R255.) -/
def Obligations.NewInstanceIsInResetState : Prop :=
  ∀ cfg host, 1 ≤ cfg.spb → ∃ t, construct cfg host = .next t ∧ InResetState t ∧ t.cfg = cfg ∧ t.host = host

/-- A response stands from the end of its request to the next accept, and to nothing else: none while the block is busy, the
response of the command that has just ended and of no other, none once a request is accepted, none after a reset, so none to a
request that a reset abandoned (70_reset_and_hazards.md R244; 43_sampler_step_machine.md R188, R191). A refused request has no
next state, so no response. That the model marks the command that ended is log 27; where a reset lands, log 12. -/
def Obligations.ResponseStandsOnlyAfterItsEnd : Prop :=
  (∀ i s, s.st = .busy → responseOf i s = none) ∧
  (∀ i s t, exec i s = .next t → t.st = .idle →
    (∃ resp, responseOf i t = some resp) ∧ ∀ j, j ≠ i → responseOf j t = none) ∧
  (∀ i s t, s.st = .idle → exec i s = .next t → t.st = .busy → ∀ j, responseOf j { t with st := .idle } = none) ∧
  (∀ s rest, 1 ≤ s.cfg.spb → s.host = .reset :: rest → ∃ t, step s = .next t ∧ ∀ i, responseOf i t = none) ∧
  ∀ i, responseOf i State.reset = none

/-- `SPB` is set at construction, which refuses 0; the reference value is 100; no step changes it (R21, R228). -/
def Obligations.SpbFixedAtConstruction : Prop :=
  (∀ cfg host, cfg.spb = 0 → construct cfg host = .refused .zeroSamplesPerBit) ∧
  (∀ cfg host, 1 ≤ cfg.spb → ∃ t, construct cfg host = .next t ∧ t.cfg = cfg ∧ t.st = .idle) ∧
  State.reset.cfg.spb = 100 ∧
  (∀ s t, step s = .next t → t.cfg = s.cfg)

/-! ### The Value Parser -/

/-- The texts read as integer literals are those of the grammar, with its values (R102, R103). -/
def Obligations.IntegerLiteralsAreTheGrammar : Prop := ∀ t v, intLiteral? t = some v ↔ GInt t v

/-- `PARSE.INT` (R101): what it answers for a literal that is not negative, for a negative one, and for a text outside the
grammar as `INT_EXT` says; the bytes it writes. Registers kept: logs 9, 10; sequences: logs 25, 26. -/
def Obligations.ParseIntAnswers : Prop :=
  ∀ r rest s, Accepts .parseInt r rest s →
    (∀ v, (GInt r.text v ∨ ((∀ u, ¬ GInt r.text u) ∧ intExt? s.cfg r.text = some v)) → 0 ≤ v →
      ∃ bytes : List Byte, exec .parseInt s =
          .next { s.freshResults.returnOperand with
            host := rest, cmd := 0x00, err := false, bytesOut := bytes, ended := some .parseInt } ∧
        bytes.length = max 1 ((bitLen v.toNat + 7) / 8) ∧
        ∀ j (h : j < bytes.length), (bytes[j]).toNat = v.toNat / 256 ^ (bytes.length - 1 - j) % 256) ∧
    (∀ v, (GInt r.text v ∨ ((∀ u, ¬ GInt r.text u) ∧ intExt? s.cfg r.text = some v)) → v < 0 →
      exec .parseInt s = .next { s.freshResults.returnOperand with
        host := rest, cmd := 0x00, err := true, errMode := 0, ended := some .parseInt }) ∧
    ((∀ u, ¬ GInt r.text u) → intExt? s.cfg r.text = none →
      exec .parseInt s = .next { s.freshResults.returnOperand with
        host := rest, cmd := 0x00, err := true, errMode := 0, ended := some .parseInt })

/-- `INT_EXT` (R106): asked only for a text outside the grammar, `invalid` for the empty text in every setting, its value
subject to the negative check and the serialisation, `invalid` for every text in the reference setting; and the settings the
rule names: a `+` sign, white space around the literal, separators, each dropped between two digits and leaving the text
invalid anywhere else (their reading: log 4). -/
def Obligations.IntExtOutsideTheGrammar : Prop :=
  (∀ cfg, parseText cfg .integer [] = none) ∧
  (∀ cfg cfg' t v, GInt t v → parseText cfg .integer t = parseText cfg' .integer t) ∧
  (∀ cfg t, (∀ u, ¬ GInt t u) → parseText cfg .integer t = match intExt? cfg t with
    | none => none
    | some v => if v < 0 then none else some (bytesOfNat v.toNat)) ∧
  (∀ t, (∀ u, ¬ GInt t u) → parseText Config.reference .integer t = none) ∧
  (∀ setting t, t ≠ [] → intExt? { Config.reference with intExt := .other setting } t = Config.intExtOther setting t) ∧
  (∀ t v, Magnitude t v →
    parseText { Config.reference with intExt := .relaxed ⟨true, [], []⟩ } .integer ('+' :: t) = some (bytesOfNat v)) ∧
  (∀ pre post t v, Magnitude t v → (∀ c ∈ pre, c = ' ') → (∀ c ∈ post, c = ' ') →
    parseText { Config.reference with intExt := .relaxed ⟨false, [' '], []⟩ } .integer (pre ++ t ++ post) =
      some (bytesOfNat v)) ∧
  (∀ pre a b post u w v, IsDigit 16 a u → IsDigit 16 b w → Magnitude (pre ++ [a, b] ++ post) v →
    parseText { Config.reference with intExt := .relaxed ⟨false, [], ['_']⟩ } .integer (pre ++ [a, '_', b] ++ post) =
      some (bytesOfNat v)) ∧
  (∀ pre post : Text,
    ((∀ d u, pre.getLast? = some d → ¬ IsDigit 16 d u) ∨ (∀ d u, post.head? = some d → ¬ IsDigit 16 d u)) →
    parseText { Config.reference with intExt := .relaxed ⟨false, [], ['_']⟩ } .integer (pre ++ '_' :: post) = none)

/-- The serialisation is minimal and big-endian (R52, R105). -/
def Obligations.SerialisationIsMinimalBigEndian : Prop :=
  ∀ v : Nat,
    bitLen 0 = 0 ∧ (v ≠ 0 → 2 ^ (bitLen v - 1) ≤ v ∧ v < 2 ^ bitLen v) ∧
    (bytesOfNat v).length = max 1 ((bitLen v + 7) / 8) ∧
    (∀ j (h : j < (bytesOfNat v).length),
      ((bytesOfNat v)[j]).toNat = v / 256 ^ ((bytesOfNat v).length - 1 - j) % 256) ∧
    (v ≠ 0 → ∃ b rest, bytesOfNat v = b :: rest ∧ b ≠ 0) ∧ bytesOfNat 0 = [0] ∧
    valBase 256 ((bytesOfNat v).map BitVec.toNat) = v ∧
    (∀ bytes : List Byte, bytes ≠ [] → valBase 256 (bytes.map BitVec.toNat) = v →
      (bytesOfNat v).length ≤ bytes.length)

/-- The round trip of R108, for the decimal text of every natural number and every instance. -/
def Obligations.DecimalTextRoundTrip : Prop :=
  ∀ (cfg : Config) (n : Nat), ∃ bytes, parseText cfg .integer (Nat.toDigits 10 n) = some bytes ∧
    (extractBits bytes).length % 8 = 0 ∧ valBits (extractBits bytes) = n

/-- Every literal of value 0 gives a single zero byte (R107). -/
def Obligations.ZeroLiteralsGiveOneZeroByte : Prop :=
  (∀ cfg t, GInt t 0 → parseText cfg .integer t = some [0]) ∧
  ∀ t ∈ [['0'], ['0', 'x', '0'], ['0', 'b', '0'], ['0', 'o', '0'], ['0', 'x', '0', '0', '0', '0'], ['-', '0']], GInt t 0

/-- `PARSE.HEX` (R109, R110). Registers kept: logs 9, 10; sequences: logs 25, 26. -/
def Obligations.ParseHexAnswers : Prop :=
  ∀ r rest s ds, Accepts .parseHex r rest s → KeptDigits 16 hexChars r.text ds →
    (ds = [] → exec .parseHex s = .next { s.freshResults.returnOperand with
      host := rest, cmd := 0x01, err := true, errMode := 1, ended := some .parseHex }) ∧
    (ds ≠ [] → ∃ bytes : List Byte, exec .parseHex s =
        .next { s.freshResults.returnOperand with
          host := rest, cmd := 0x01, err := false, bytesOut := bytes, ended := some .parseHex } ∧
      bytes.length = (ds.length + 1) / 2 ∧
      ∀ j (h : j < bytes.length), ∃ hi lo,
        (if ds.length % 2 = 1 then 0 :: ds else ds)[2 * j]? = some hi ∧
        (if ds.length % 2 = 1 then 0 :: ds else ds)[2 * j + 1]? = some lo ∧ (bytes[j]).toNat = 16 * hi + lo)

/-- `PARSE.BIN` (R112, R113). Registers kept: logs 9, 10; sequences: logs 25, 26. -/
def Obligations.ParseBinAnswers : Prop :=
  ∀ r rest s ds, Accepts .parseBin r rest s → KeptDigits 2 binChars r.text ds →
    (ds = [] → exec .parseBin s = .next { s.freshResults.returnOperand with
      host := rest, cmd := 0x02, err := true, errMode := 2, ended := some .parseBin }) ∧
    (ds ≠ [] → ∃ bytes : List Byte, exec .parseBin s =
        .next { s.freshResults.returnOperand with
          host := rest, cmd := 0x02, err := false, bytesOut := bytes, ended := some .parseBin } ∧
      bytes.length = (ds.length + 7) / 8 ∧
      ∀ j (h : j < bytes.length), (bytes[j]).toNat =
        valBase 2 (((List.replicate ((ds.length + 7) / 8 * 8 - ds.length) 0 ++ ds).drop (8 * j)).take 8))

/-- Every successful parse gives at least one byte (40_value_parser.md section 5). -/
def Obligations.ParsedBytesNeverEmpty : Prop :=
  ∀ cfg m t bytes, parseText cfg m t = some bytes → 1 ≤ bytes.length

/-- What a `PARSE` leaves unchanged, and what it may write (10_state.md sections 5 and 10, R115's "it changes no other
state"). Registers kept: logs 9, 10; sequences: logs 25, 26. -/
def Obligations.ParseFrame : Prop :=
  ∀ m s t, exec (.parse m) s = .next t →
    t.cfg = s.cfg ∧ t.st = .idle ∧ t.nbytes = s.nbytes ∧ t.nbits = s.nbits ∧ t.q = s.q ∧ t.n = s.n ∧ t.p = s.p ∧
    t.k = s.k ∧ t.pol = s.pol ∧ t.cmd = encode (.parse m) ∧ t.host = s.host.tail ∧ NoOperand t ∧ OnlyResult .text t ∧
    t.ended = some (.parse m) ∧
    (t.err = false → t.errMode = s.errMode) ∧ (t.err = true → t.bytesOut = [])

/-! ### The one exception -/

/-- Which commands raise `InvalidInput`: each `PARSE` its own code, the others never (R213). -/
def Obligations.InvalidInputOnlyFromParse : Prop :=
  (∀ m : Mode, ∃ s t : State, StateInv s ∧ exec (.parse m) s = .next t ∧ t.err = true) ∧
  (∀ m s t, exec (.parse m) s = .next t → t.err = true → t.errMode.toNat = m.num) ∧
  (∀ i s t, (∀ m, i ≠ .parse m) → StateInv s → exec i s = .next t → t.err = false)

/-- The entry of `InvalidInput` (R215): the transaction ends in the same step, with nothing saved but the error record. Registers kept: logs 9, 10; sequences: logs 25, 26. -/
def Obligations.InvalidInputEntry : Prop :=
  ∀ m r rest s, Accepts (.parse m) r rest s → parseText s.cfg m r.text = none →
    ∃ t, exec (.parse m) s = .next t ∧
      t = { s.freshResults.returnOperand with
        host := rest, cmd := encode (.parse m), err := true, errMode := BitVec.ofNat 2 m.num, bytesOut := [],
        st := .idle, ended := some (.parse m) } ∧
      responseOf (.parse m) t = some (.invalidInput m)

/-! ### The Bit Extractor -/

/-- `EXTRACT` as a machine: its accept, bit and completion steps, and how many there are (R136). Registers kept: logs 9, 10; sequences: logs 25, 26. -/
def Obligations.ExtractSteps : Prop :=
  (∀ r rest s, Accepts .extract r rest s → exec .extract s = .next { s.freshResults with
    host := rest, st := .busy, cmd := 0x10, bytesIn := r.bytes, nbytes := r.bytes.length, q := 0, bitsOut := [],
    err := false }) ∧
  (∀ s (v : Byte), s.st = .busy → s.q < 8 * s.nbytes → s.bytesIn[s.q / 8]? = some v → exec .extract s = .next { s with
    bitsOut := s.bitsOut ++ [decide (v.toNat / 2 ^ (7 - s.q % 8) % 2 = 1)], q := s.q + 1 }) ∧
  (∀ s, s.st = .busy → s.q = 8 * s.nbytes → exec .extract s =
    .next { s.returnOperand with st := .idle, ended := some .extract }) ∧
  (∀ r rest s, Accepts .extract r rest s → r.word = 0x10 → ResetFree rest →
    (∀ k, k ≤ 8 * r.bytes.length → ∃ u, runSteps (k + 1) s = .next u ∧ u.st = .busy ∧ u.q = k) ∧
    ∃ t, runSteps (8 * r.bytes.length + 2) s = .next t ∧ t.st = .idle)

/-- The complete `EXTRACT` request answers the eight bits of each byte, most significant first (R130, R131). -/
def Obligations.ExtractRunAnswersTheBits : Prop :=
  (∀ r rest s, Accepts .extract r rest s → r.word = 0x10 → ResetFree rest →
    ∃ t, runSteps (8 * r.bytes.length + 2) s = .next t ∧ t.st = .idle ∧ t.err = false ∧
      responseOf .extract t = some (.bits (extractBits r.bytes))) ∧
  (∀ (b : List Byte) q, q < 8 * b.length → ∃ v, b[q / 8]? = some v ∧
    (extractBits b)[q]? = some (v.getLsbD (7 - q % 8)) ∧
    (extractBits b)[q]? = some (decide (v.toNat / 2 ^ (7 - q % 8) % 2 = 1))) ∧
  (∀ b : List Byte, (extractBits b).length = 8 * b.length)

/-- Bytes are recoverable from bits, so `EXTRACT` is injective (41_bit_extractor.md section 1). -/
def Obligations.BytesRecoverableFromBits : Prop :=
  (∀ (b : List Byte) j (h : j < b.length), valBits (((extractBits b).drop (8 * j)).take 8) = (b[j]).toNat) ∧
  ∀ a b : List Byte, extractBits a = extractBits b → a = b

/-- The length law of the Bit Extractor (R133). -/
def Obligations.BitLengthLaw : Prop :=
  ∀ b : List Byte, (extractBits b).length = 8 * b.length ∧ (extractBits b).length % 8 = 0

/-- What `EXTRACT` leaves unchanged, and what it may write (10_state.md sections 5 and 10). Registers kept: logs 9, 10;
sequences: logs 25, 26. -/
def Obligations.ExtractFrame : Prop :=
  ∀ s t, exec .extract s = .next t →
    t.cfg = s.cfg ∧ t.nbits = s.nbits ∧ t.n = s.n ∧ t.p = s.p ∧ t.k = s.k ∧ t.pol = s.pol ∧ t.errMode = s.errMode ∧
    (s.st = .idle → t.err = false ∧ t.cmd = encode .extract ∧ t.host = s.host.tail ∧ t.textIn = s.textIn ∧
      t.bitsIn = s.bitsIn ∧ OnlyResult .bytes t ∧ t.ended = none) ∧
    (s.st = .busy → t.err = s.err ∧ t.cmd = s.cmd ∧ t.host = s.host ∧ t.nbytes = s.nbytes ∧ t.bytesOut = s.bytesOut ∧
      t.waveOut = s.waveOut ∧ t.regOut = s.regOut ∧
      (t.st = .busy → t.textIn = s.textIn ∧ t.bytesIn = s.bytesIn ∧ t.bitsIn = s.bitsIn ∧ t.ended = s.ended) ∧
      (t.st = .idle → NoOperand t ∧ t.q = s.q ∧ t.bitsOut = s.bitsOut ∧ t.ended = some .extract))

/-! ### The Line-Code Generators as a machine -/

/-- The accept step of the nine `ENC` commands (R181). Registers kept: logs 9, 10; sequences: logs 25, 26. -/
def Obligations.EncAccept : Prop :=
  ∀ c r rest s, Accepts (.enc c) r rest s → exec (.enc c) s = .next { s.freshResults with
    host := rest, cmd := BitVec.ofNat 8 (0x20 + c.num), st := .busy, err := false, bitsIn := r.bits,
    nbits := r.bits.length, n := 0, p := 0, k := 0, pol := .minus, waveOut := [] }

/-- The sample step of the nine `ENC` commands: one record at index `K`, the AMI flip at phase 0, the counters (R182). Registers kept: logs 9, 10; sequences: logs 25, 26. -/
def Obligations.EncSampleStep : Prop :=
  ∀ c x s, AtSample x s →
    exec (.enc c) s = .next (s.withSample
      (level c s.cfg.spb x s.p (if s.p = 0 ∧ c.num = 4 ∧ x = true then s.pol.flip else s.pol))
      (if s.p = 0 ∧ c.num = 4 ∧ x = true then s.pol.flip else s.pol))

/-- The completion step of the nine `ENC` commands; for an empty operand it is the first step after accept (R184). Registers kept: logs 9, 10; sequences: logs 25, 26. -/
def Obligations.EncCompletion : Prop :=
  (∀ c s, s.st = .busy → s.n = s.nbits → exec (.enc c) s =
    .next { s.returnOperand with st := .idle, ended := some (.enc c) }) ∧
  (∀ c r rest s, Accepts (.enc c) r rest s → r.word = encode (.enc c) → ResetFree rest → r.bits = [] →
    ∃ t, runSteps 2 s = .next t ∧ t.st = .idle ∧ t.err = false ∧ responseOf (.enc c) t = some (.wave [])) ∧
  (∀ c s, EncRunning c s → s.n = s.nbits → s.waveOut.length = s.nbits * s.cfg.spb) ∧
  ∀ c (s : State), responseOf (.enc c) { s.returnOperand with st := .idle, ended := some (.enc c) } =
    some (.wave s.waveOut)

/-- The lanes whose level does not depend on the phase: NRZU, NRZB, MARK, SPACE (R145, R146, R151, R152). Registers kept: logs 9, 10; sequences: logs 25, 26. -/
def Obligations.ConstantBlockLanes : Prop :=
  decode 0x20 = .instr .encNrzu ∧ decode 0x21 = .instr .encNrzb ∧ decode 0x26 = .instr .encMark ∧
  decode 0x27 = .instr .encSpace ∧
  Scheme.nrzu.num = 0 ∧ Scheme.nrzb.num = 1 ∧ Scheme.mark.num = 6 ∧ Scheme.space.num = 7 ∧
  (∀ spb x p pol, (level .nrzu spb x p pol).val = x.toNat ∧ (level .nrzb spb x p pol).val = 2 * (x.toNat : Int) - 1 ∧
    (level .mark spb x p pol).val = x.toNat ∧ (level .space spb x p pol).val = 1 - (x.toNat : Int)) ∧
  (∀ x s, AtSample x s →
    exec .encNrzu s = .next (s.withSample (if x then .pos else .zero) s.pol) ∧
    exec .encNrzb s = .next (s.withSample (if x then .pos else .neg) s.pol) ∧
    exec .encMark s = .next (s.withSample (if x then .pos else .zero) s.pol) ∧
    exec .encSpace s = .next (s.withSample (if x then .zero else .pos) s.pol)) ∧
  (∀ spb m, encodeLevels .nrzu spb (List.replicate m false) = List.replicate (m * spb) .zero) ∧
  (∀ spb bits, encodeWave .mark spb bits = encodeWave .nrzu spb bits) ∧
  (∀ spb bits, List.Forall₂ (fun a b : Level => a.val + b.val = 1) (encodeLevels .space spb bits)
    (encodeLevels .mark spb bits)) ∧
  (encodeLevels .nrzu 2 [true, false, true, true]).map Level.val = [1, 1, 0, 0, 1, 1, 1, 1] ∧
  (encodeLevels .nrzb 2 [true, false, true, true]).map Level.val = [1, 1, -1, -1, 1, 1, 1, 1] ∧
  (encodeLevels .mark 2 [true, false, true, true]).map Level.val = [1, 1, 0, 0, 1, 1, 1, 1] ∧
  (encodeLevels .space 2 [true, false, true, true]).map Level.val = [0, 0, 1, 1, 0, 0, 0, 0]

/-- The lanes that split a block after `H = floor(SPB / 2)` samples: RZU, RZB, MAN, CLK (R147, R148, R150, R153). Registers kept: logs 9, 10; sequences: logs 25, 26. -/
def Obligations.HalfBlockLanes : Prop :=
  decode 0x22 = .instr .encRzu ∧ decode 0x23 = .instr .encRzb ∧ decode 0x25 = .instr .encMan ∧
  decode 0x28 = .instr .encClk ∧
  Scheme.rzu.num = 2 ∧ Scheme.rzb.num = 3 ∧ Scheme.man.num = 5 ∧ Scheme.clk.num = 8 ∧
  (∀ x s, AtSample x s →
    exec .encRzu s = .next (s.withSample (if x = true ∧ s.p < s.cfg.spb / 2 then .pos else .zero) s.pol) ∧
    exec .encRzb s = .next (s.withSample (if x = true ∧ s.p < s.cfg.spb / 2 then .pos else .zero) s.pol) ∧
    exec .encMan s = .next (s.withSample
      (if s.p < s.cfg.spb / 2 then (if x then .neg else .pos) else (if x then .pos else .neg)) s.pol) ∧
    exec .encClk s = .next (s.withSample (if s.p < s.cfg.spb / 2 then .pos else .zero) s.pol)) ∧
  (∀ spb x,
    bitBlock spb (fun p => level .rzu spb x p .minus) =
      (if x then List.replicate (spb / 2) .pos ++ List.replicate (spb - spb / 2) .zero
        else List.replicate spb .zero) ∧
    bitBlock spb (fun p => level .man spb x p .minus) =
      (if x then List.replicate (spb / 2) .neg ++ List.replicate (spb - spb / 2) .pos
        else List.replicate (spb / 2) .pos ++ List.replicate (spb - spb / 2) .neg) ∧
    bitBlock spb (fun p => level .clk spb x p .minus) =
      List.replicate (spb / 2) .pos ++ List.replicate (spb - spb / 2) .zero) ∧
  (∀ spb bits, encodeWave .rzb spb bits = encodeWave .rzu spb bits) ∧
  (∀ bits, encodeLevels .rzu 1 bits = List.replicate bits.length .zero ∧
    encodeLevels .clk 1 bits = List.replicate bits.length .zero ∧ encodeWave .man 1 bits = encodeWave .nrzb 1 bits) ∧
  (∀ spb (a b : List Bit), a.length = b.length → encodeWave .clk spb a = encodeWave .clk spb b) ∧
  (encodeLevels .rzu 2 [true, false, true, true]).map Level.val = [1, 0, 0, 0, 1, 0, 1, 0] ∧
  (encodeLevels .man 2 [true, false, true, true]).map Level.val = [-1, 1, 1, -1, -1, 1, -1, 1] ∧
  (encodeLevels .rzu 3 [true, false, true, true]).map Level.val = [1, 0, 0, 0, 0, 0, 1, 0, 0, 1, 0, 0] ∧
  (encodeLevels .rzb 2 [true, false, true, true]).map Level.val = [1, 0, 0, 0, 1, 0, 1, 0] ∧
  (encodeLevels .man 3 [true, false, true, true]).map Level.val = [-1, 1, 1, 1, -1, -1, -1, 1, 1, -1, 1, 1] ∧
  (encodeLevels .clk 2 [true, false, true, true]).map Level.val = [1, 0, 1, 0, 1, 0, 1, 0]

/-- AMI: a 0-bit is a zero block, a 1-bit flips the polarity first and is a whole block at the new polarity (R149). Registers kept: logs 9, 10; sequences: logs 25, 26. -/
def Obligations.AmiLane : Prop :=
  decode 0x24 = .instr .encAmi ∧ Scheme.ami.num = 4 ∧
  (∀ r rest s, Accepts .encAmi r rest s → ∃ t, exec .encAmi s = .next t ∧ t.pol = .minus ∧ t.n = 0 ∧ t.p = 0) ∧
  (∀ s, AtSample false s → exec .encAmi s = .next (s.withSample .zero s.pol)) ∧
  (∀ s, AtSample true s → s.p = 0 →
    exec .encAmi s = .next (s.withSample (if s.pol = .minus then .pos else .neg) s.pol.flip)) ∧
  (∀ s, AtSample true s → s.p ≠ 0 →
    exec .encAmi s = .next (s.withSample (if s.pol = .minus then .neg else .pos) s.pol)) ∧
  (∀ spb m, encodeLevels .ami spb (List.replicate m false) = List.replicate (m * spb) .zero) ∧
  (∀ spb m k, encodeLevels .ami spb (List.replicate m false ++ [true] ++ List.replicate k false ++ [true]) =
    List.replicate (m * spb) .zero ++ List.replicate spb .pos ++ List.replicate (k * spb) .zero ++
      List.replicate spb .neg) ∧
  (encodeLevels .ami 2 [true, false, true, true]).map Level.val = [1, 1, 0, 0, -1, -1, 1, 1]

/-- `POL` changes inside a request only by an AMI flip at the first sample of a 1-bit (10_state.md, POL). -/
def Obligations.PolarityFlipsOnlyInAmi : Prop :=
  ∀ i s t, s.st = .busy → exec i s = .next t → t.pol ≠ s.pol →
    i = .encAmi ∧ s.p = 0 ∧ s.bitsIn[s.n]? = some true ∧ t.pol = s.pol.flip

/-- What the nine `ENC` commands leave unchanged, and what they may write (10_state.md sections 5 and 10). Registers kept:
logs 9, 10; sequences: logs 25, 26. -/
def Obligations.EncFrame : Prop :=
  ∀ c s t, exec (.enc c) s = .next t →
    t.cfg = s.cfg ∧ t.nbytes = s.nbytes ∧ t.q = s.q ∧ t.errMode = s.errMode ∧
    (s.st = .idle → t.err = false ∧ t.cmd = encode (.enc c) ∧ t.host = s.host.tail ∧ t.textIn = s.textIn ∧
      t.bytesIn = s.bytesIn ∧ OnlyResult .bits t ∧ t.ended = none) ∧
    (s.st = .busy → t.err = s.err ∧ t.cmd = s.cmd ∧ t.host = s.host ∧ t.nbits = s.nbits ∧ t.bytesOut = s.bytesOut ∧
      t.bitsOut = s.bitsOut ∧ t.regOut = s.regOut ∧ (c ≠ .ami → t.pol = s.pol) ∧
      (t.st = .busy → t.textIn = s.textIn ∧ t.bytesIn = s.bytesIn ∧ t.bitsIn = s.bitsIn ∧ t.ended = s.ended) ∧
      (t.st = .idle → NoOperand t ∧ t.n = s.n ∧ t.p = s.p ∧ t.k = s.k ∧ t.pol = s.pol ∧ t.waveOut = s.waveOut ∧
        t.ended = some (.enc c)))

/-- The step machine and the functional form agree for every scheme, with the step count of R185
(43_sampler_step_machine.md section 3). -/
def Obligations.EncRunAnswersTheWaveform : Prop :=
  ∀ c r rest s, Accepts (.enc c) r rest s → r.word = encode (.enc c) → ResetFree rest →
    (∀ k, k ≤ r.bits.length * s.cfg.spb → ∃ u, runSteps (k + 1) s = .next u ∧ u.st = .busy ∧ u.k = k) ∧
    ∃ t, runSteps (r.bits.length * s.cfg.spb + 2) s = .next t ∧ t.st = .idle ∧ t.err = false ∧
      responseOf (.enc c) t = some (.wave (encodeWave c s.cfg.spb r.bits))

/-! ### The Line-Code Generators as functions -/

/-- Sample `n * SPB + p` of a Waveform carries its index and the level of bit `n` at phase `p`
(42_line_code_generators.md section 1). -/
def Obligations.WaveformSampleBySample : Prop :=
  ∀ c spb bits n p x, bits[n]? = some x → p < spb →
    (encodeWave c spb bits)[n * spb + p]? =
      some { time := n * spb + p, level := level c spb x p (polAfter (bits.take (n + 1))) }

/-- AMI in closed form (42_line_code_generators.md section 3). -/
def Obligations.AmiClosedForm : Prop :=
  ∀ spb bits n p x, bits[n]? = some x → p < spb →
    (encodeLevels .ami spb bits)[n * spb + p]?.map Level.val =
      some ((x.toNat : Int) * (-1) ^ ((bits.take (n + 1)).count true + 1))

/-- The time axis, common to all schemes, and the length law (R58, R157). -/
def Obligations.TimeAxis : Prop :=
  ∀ c spb bits, 1 ≤ spb →
    (timesOf spb (encodeWave c spb bits)).length = bits.length * spb ∧
    (levelsOf (encodeWave c spb bits)).length = bits.length * spb ∧
    (∀ k, k < bits.length * spb → (timesOf spb (encodeWave c spb bits))[k]? = some ((k : Rat) / (spb : Rat))) ∧
    (timesOf spb (encodeWave c spb bits)).Pairwise (· < ·) ∧
    (∀ t ∈ timesOf spb (encodeWave c spb bits), 0 ≤ t ∧ t < (bits.length : Rat)) ∧
    (bits ≠ [] → (timesOf spb (encodeWave c spb bits)).head? = some 0 ∧
      (timesOf spb (encodeWave c spb bits)).getLast? = some ((bits.length : Rat) - 1 / (spb : Rat))) ∧
    ∀ d (other : List Bit), other.length = bits.length →
      timesOf spb (encodeWave d spb other) = timesOf spb (encodeWave c spb bits)

/-- The half-block split: `floor(SPB / 2)` samples, then the rest; with `SPB = 1` no sample is in the first half (R142). -/
def Obligations.HalfBlockSplit : Prop :=
  (∀ spb, ((List.range spb).filter fun p => firstHalf spb p).length = spb / 2 ∧
    ((List.range spb).filter fun p => !firstHalf spb p).length = spb - spb / 2 ∧
    (∀ p, firstHalf spb p = true ↔ p < spb / 2)) ∧
  halfOf 100 = 50 ∧ halfOf 3 = 1 ∧ halfOf 1 = 0 ∧ ∀ p, firstHalf 1 p = false

/-- The source's Manchester property for every `SPB ≥ 2`, both halves non-empty; with `SPB = 1` the second half alone (R159). -/
def Obligations.ManchesterMidBitStep : Prop :=
  (∀ spb, 2 ≤ spb → 1 ≤ spb / 2 ∧ 1 ≤ spb - spb / 2 ∧
    encodeLevels .man spb [true] = List.replicate (spb / 2) .neg ++ List.replicate (spb - spb / 2) .pos) ∧
  encodeLevels .man 1 [true] = [.pos]

/-- The identities between lanes (42_line_code_generators.md section 4). -/
def Obligations.LaneIdentities : Prop :=
  ∀ spb bits,
    encodeWave .rzb spb bits = encodeWave .rzu spb bits ∧ encodeWave .mark spb bits = encodeWave .nrzu spb bits ∧
    (encodeLevels .space spb bits).map Level.val = (encodeLevels .mark spb bits).map (fun l => 1 - l.val) ∧
    (encodeLevels .nrzb spb bits).map Level.val = (encodeLevels .nrzu spb bits).map (fun l => 2 * l.val - 1) ∧
    encodeWave .clk spb bits = encodeWave .rzu spb (List.replicate bits.length true) ∧
    (encodeLevels .man spb bits).map Level.val = (encodeLevels .man spb (bits.map not)).map (fun l => -l.val) ∧
    (encodeLevels .ami spb bits).map (fun l => |l.val|) = (encodeLevels .nrzu spb bits).map Level.val ∧
    (encodeLevels .rzu spb bits).map Level.val =
      List.zipWith (fun a b => a.val * b.val) (encodeLevels .nrzu spb bits) (encodeLevels .clk spb bits)

/-- Which levels each lane can emit (42_line_code_generators.md section 4): only NRZB, AMI and MAN emit -1, and NRZB and MAN never 0. -/
def Obligations.LevelsEachLaneEmits : Prop :=
  ∀ c spb bits, ∀ l ∈ encodeLevels c spb bits,
    (l = .neg → c = .nrzb ∨ c = .ami ∨ c = .man) ∧ (l = .zero → c ≠ .nrzb ∧ c ≠ .man)

/-- The `LEVEL` field (R85): the three codes, two's complement, and `0b10` of no level. -/
def Obligations.LevelFieldCodes : Prop :=
  Level.zero.code = 0b00 ∧ Level.pos.code = 0b01 ∧ Level.neg.code = 0b11 ∧
  ∀ l : Level, l.code ≠ 0b10 ∧ l.code.toInt = l.val

/-- With `SPB = 1` every block is one second-half sample (42_line_code_generators.md section 4). -/
def Obligations.OneSamplePerBit : Prop :=
  ∀ bits : List Bit,
    (encodeLevels .nrzu 1 bits).map Level.val = bits.map (fun x => (x.toNat : Int)) ∧
    (encodeLevels .nrzb 1 bits).map Level.val = bits.map (fun x => 2 * (x.toNat : Int) - 1) ∧
    encodeLevels .rzu 1 bits = bits.map (fun _ => .zero) ∧ encodeLevels .rzb 1 bits = bits.map (fun _ => .zero) ∧
    (encodeLevels .man 1 bits).map Level.val = bits.map (fun x => 2 * (x.toNat : Int) - 1) ∧
    (encodeLevels .mark 1 bits).map Level.val = bits.map (fun x => (x.toNat : Int)) ∧
    (encodeLevels .space 1 bits).map Level.val = bits.map (fun x => 1 - (x.toNat : Int)) ∧
    encodeLevels .clk 1 bits = bits.map (fun _ => .zero)

/-- Concatenation (42_line_code_generators.md section 5): block-local but for AMI, whose second part is negated when the
first has an odd number of 1-bits. -/
def Obligations.EncodingConcatenates : Prop :=
  (∀ c spb a b, c ≠ .ami ∨ a.count true % 2 = 0 →
    encodeLevels c spb (a ++ b) = encodeLevels c spb a ++ encodeLevels c spb b) ∧
  (∀ spb a b, a.count true % 2 = 1 →
    (encodeLevels .ami spb (a ++ b)).map Level.val =
      (encodeLevels .ami spb a).map Level.val ++ (encodeLevels .ami spb b).map (fun l => -l.val)) ∧
  (∀ c spb a b, 1 ≤ spb → timesOf spb (encodeWave c spb (a ++ b)) =
    timesOf spb (encodeWave c spb a) ++ (timesOf spb (encodeWave c spb b)).map (fun t => t + (a.length : Rat)))

/-! ### The registry and the composite operations -/

/-- `SCHEMES` answers the registry (R200, R88), and `ENC` has a word for exactly its numbers (R201). Registers kept: logs 9, 10; sequences: logs 25, 26. -/
def Obligations.SchemesAnswersTheRegistry : Prop :=
  (∀ r rest s, Accepts .schemes r rest s → exec .schemes s = .next { s.freshResults.returnOperand with
    host := rest, cmd := 0x30, err := false, ended := some .schemes,
    regOut := [⟨"NRZ-Unipolar", 0⟩, ⟨"NRZ-Bipolar", 1⟩, ⟨"RZ-Unipolar", 2⟩, ⟨"RZ-Bipolar", 3⟩, ⟨"AMI", 4⟩,
      ⟨"Manchester", 5⟩, ⟨"MARK", 6⟩, ⟨"SPACE", 7⟩, ⟨"Clock", 8⟩] }) ∧
  registry.map RegEntry.id = Scheme.all.map Scheme.num ∧ (registry.map RegEntry.id).Nodup ∧
  (∀ c : Scheme, c ∈ Scheme.all ∧ decode (BitVec.ofNat 8 (0x20 + c.num)) = .instr (.enc c)) ∧
  (∀ n, n < 16 → ((decode (BitVec.ofNat 8 (0x20 + n))).toOption.isSome = true ↔ n ∈ registry.map RegEntry.id))

/-- What `SCHEMES` leaves unchanged, and what it may write (10_state.md sections 5 and 10). Registers kept: logs 9, 10;
sequences: logs 25, 26. -/
def Obligations.SchemesFrame : Prop :=
  ∀ s t, exec .schemes s = .next t →
    t.cfg = s.cfg ∧ t.st = .idle ∧ t.nbytes = s.nbytes ∧ t.nbits = s.nbits ∧ t.q = s.q ∧ t.n = s.n ∧ t.p = s.p ∧
    t.k = s.k ∧ t.pol = s.pol ∧ t.errMode = s.errMode ∧ t.err = false ∧ t.cmd = encode .schemes ∧
    t.host = s.host.tail ∧ NoOperand t ∧ OnlyResult .nothing t ∧ t.ended = some .schemes

/-- `ENC.ALL` gives the nine Waveforms of the bits in registry order, whatever the idle block holds; the order of the
requests does not matter; all nine share one time axis; no bits give nine empty Waveforms (R203, R205). -/
def Obligations.EncAllGivesNineWaveforms : Prop :=
  (∀ bits s, 1 ≤ s.cfg.spb → s.st = .idle → withinBound s.cfg.maxBits bits.length = true →
    (∃ t, encAll bits s = .next (Scheme.all.map fun c => encodeWave c s.cfg.spb bits, t) ∧ t.st = .idle ∧
      t.cfg = s.cfg) ∧
    (∀ order : List Scheme, ∃ t, encEach bits order s = .next (order.map fun c => encodeWave c s.cfg.spb bits, t) ∧
      t.st = .idle ∧ t.cfg = s.cfg)) ∧
  (∀ c d spb bits, timesOf spb (encodeWave c spb bits) = timesOf spb (encodeWave d spb bits)) ∧
  (∀ c spb, encodeWave c spb [] = []) ∧ Scheme.all.length = 9

/-- `RENDER` (R204): for a text the mode rejects, the parser's error and the state that the one `PARSE` request leaves, so no
`EXTRACT` and no `ENC` issued; else the nine Waveforms of the bits of the parsed bytes, none of them empty. Every instance
within whose bounds the text and the bits are. -/
def Obligations.RenderAnswers : Prop :=
  ∀ m text s, 1 ≤ s.cfg.spb → s.st = .idle → withinBound s.cfg.maxText text.length = true →
    (parseText s.cfg m text = none → ∃ t, transact (.parse m) (Request.parse m text) s = .next t ∧
      render m text s = .next (.invalidInput m, t) ∧ t.st = .idle ∧
      responseOf (.parse m) t = some (.invalidInput m)) ∧
    (∀ bytes, parseText s.cfg m text = some bytes → 1 ≤ bytes.length ∧
      (withinBound s.cfg.maxBits (8 * bytes.length) = true → ∃ t, render m text s =
          .next (.waves (Scheme.all.map fun c => encodeWave c s.cfg.spb (extractBits bytes)), t) ∧ t.st = .idle ∧
        ∀ c, (encodeWave c s.cfg.spb (extractBits bytes)).length = 8 * bytes.length * s.cfg.spb ∧
          encodeWave c s.cfg.spb (extractBits bytes) ≠ []))

/-- Where the host's expansions are refused: `RENDER` of a text, or of parsed bytes, over a bound of the instance, and
`ENC.ALL` of bits over one (44_registry_and_composites.md section 2, 60_exceptions.md section 5). -/
def Obligations.CompositesRefusedOverCapacity : Prop :=
  ∀ s : State, 1 ≤ s.cfg.spb → s.st = .idle →
    (∀ m text, withinBound s.cfg.maxText text.length = false → render m text s = .refused .overCapacity) ∧
    (∀ m text bytes, withinBound s.cfg.maxText text.length = true → parseText s.cfg m text = some bytes →
      withinBound s.cfg.maxBits (8 * bytes.length) = false → render m text s = .refused .overCapacity) ∧
    (∀ bits, withinBound s.cfg.maxBits bits.length = false → encAll bits s = .refused .overCapacity)

/-! ### The whole machine -/

/-- The state after reset meets the invariant; the values of `CMD` and `ERRMODE` in it are the model's (logs 5, 6),
and so are those of a new instance before a reset (log 24). -/
def Obligations.ResetMeetsTheInvariant : Prop :=
  StateInv State.reset ∧ ∀ cfg host, 1 ≤ cfg.spb → StateInv (State.resetWith cfg host)

/-- Every step keeps the invariant (10_state.md sections 8 and 10), from every state that meets it. Parts of the invariant are
the model's choice: after a reset a `CMD` that is no reserved word and `ERRMODE` at most 2 (logs 5, 6); after an ended request
legal counters and a `CMD` that matches the result held (log 9); `ERRMODE` at most 2 while `ERR` is 0 (log 10); the emptied
operands and results (logs 25, 26); `ended` (log 27). -/
def Obligations.StepKeepsTheInvariant : Prop := ∀ s t, StateInv s → step s = .next t → StateInv t

/-- There is no stuck state: from a state that meets the invariant no step faults (43_sampler_step_machine.md section 4). -/
def Obligations.NoStuckState : Prop := ∀ s f, StateInv s → step s ≠ .fault f

/-- From a state that meets the invariant a step is refused only for a reserved word or an operand over capacity. -/
def Obligations.RefusalsOnlyAtAccept : Prop :=
  ∀ s ρ, StateInv s → step s = .refused ρ → s.st = .idle ∧ ∃ r rest, s.host = .request r :: rest ∧
    ((∃ why, decode r.word = .reserved why ∧ ρ = .reservedWord r.word why) ∨
      ∃ i, decode r.word = .instr i ∧ operandFits s.cfg i r = false ∧ ρ = .overCapacity)

/-- An operand, or a result, over capacity is refused at accept; without a bound this never happens (R227). -/
def Obligations.OverCapacityRefused : Prop :=
  (∀ s r rest bound i, 1 ≤ s.cfg.spb → s.st = .idle → s.host = .request r :: rest → decode r.word = .instr i →
    ((i.operand = .text ∧ s.cfg.maxText = some bound ∧ bound < r.text.length) ∨
      (i.operand = .bytes ∧ s.cfg.maxBits = some bound ∧ bound < 8 * r.bytes.length) ∨
      (i.operand = .bits ∧ s.cfg.maxBits = some bound ∧ bound < r.bits.length)) →
    step s = .refused .overCapacity) ∧
  (∀ s, s.cfg.maxText = none → s.cfg.maxBits = none → step s ≠ .refused .overCapacity)

/-- Every request terminates (43_sampler_step_machine.md section 2): from a busy state that meets the invariant the block
is idle after exactly the steps left and one completion step, and busy before, if the host does not assert reset. -/
def Obligations.BusyEndsInCountedSteps : Prop :=
  ∀ s, StateInv s → s.st = .busy → ResetFree s.host →
    (∀ j, j ≤ s.stepsLeft → ∃ u, runSteps j s = .next u ∧ u.st = .busy) ∧
    ∃ t, runSteps (s.stepsLeft + 1) s = .next t ∧ t.st = .idle

/-- The sequences an ended request leaves (10_state.md sections 1, 2 and 5): whatever the state, a step of a command that ends in
`IDLE` leaves the three operand sequences empty, and a step of a command from an idle block leaves the result sequences of the
other units empty. Logs 25, 26; the working registers are kept, log 9. -/
def Obligations.OperandReturnedAndOtherResultsDropped : Prop :=
  (∀ i s t, exec i s = .next t → t.st = .idle → NoOperand t) ∧
  (∀ i s t, s.st = .idle → exec i s = .next t → OnlyResult i.operand t)

/-- Nothing carries over from one request to the next (R20): two idle blocks of one configuration that are offered the same
request give the same response, whatever else they hold. -/
def Obligations.NothingCarriesOver : Prop :=
  ∀ i r rest s1 s2, Accepts i r rest s1 → Accepts i r rest s2 → s1.cfg = s2.cfg → r.word = encode i → ResetFree rest →
    ∃ t1 t2 resp, runSteps (requestSteps s1.cfg i r) s1 = .next t1 ∧ runSteps (requestSteps s1.cfg i r) s2 = .next t2 ∧
      responseOf i t1 = some resp ∧ responseOf i t2 = some resp ∧ t1.err = t2.err
end

