-- ==== Sys2Proof/Laws/State.lean ====
section
/-! SUPPORT. One lemma per field of State and update: what each named update writes, and what it leaves. -/

namespace Sys2Proof.Machine

/-! ### `State.clearErr` -/

section
variable (s : State)

@[simp] theorem State.clearErr_cfg : (s.clearErr).cfg = s.cfg := rfl
@[simp] theorem State.clearErr_host : (s.clearErr).host = s.host := rfl
@[simp] theorem State.clearErr_st : (s.clearErr).st = s.st := rfl
@[simp] theorem State.clearErr_cmd : (s.clearErr).cmd = s.cmd := rfl
@[simp] theorem State.clearErr_textIn : (s.clearErr).textIn = s.textIn := rfl
@[simp] theorem State.clearErr_bytesIn : (s.clearErr).bytesIn = s.bytesIn := rfl
@[simp] theorem State.clearErr_bitsIn : (s.clearErr).bitsIn = s.bitsIn := rfl
@[simp] theorem State.clearErr_nbytes : (s.clearErr).nbytes = s.nbytes := rfl
@[simp] theorem State.clearErr_nbits : (s.clearErr).nbits = s.nbits := rfl
@[simp] theorem State.clearErr_q : (s.clearErr).q = s.q := rfl
@[simp] theorem State.clearErr_n : (s.clearErr).n = s.n := rfl
@[simp] theorem State.clearErr_p : (s.clearErr).p = s.p := rfl
@[simp] theorem State.clearErr_k : (s.clearErr).k = s.k := rfl
@[simp] theorem State.clearErr_pol : (s.clearErr).pol = s.pol := rfl
@[simp] theorem State.clearErr_err : (s.clearErr).err = false := rfl
@[simp] theorem State.clearErr_errMode : (s.clearErr).errMode = s.errMode := rfl
@[simp] theorem State.clearErr_bytesOut : (s.clearErr).bytesOut = s.bytesOut := rfl
@[simp] theorem State.clearErr_bitsOut : (s.clearErr).bitsOut = s.bitsOut := rfl
@[simp] theorem State.clearErr_waveOut : (s.clearErr).waveOut = s.waveOut := rfl
@[simp] theorem State.clearErr_regOut : (s.clearErr).regOut = s.regOut := rfl
@[simp] theorem State.clearErr_ended : (s.clearErr).ended = s.ended := rfl

end

/-! ### `State.setErr` -/

section
variable (m : Mode) (s : State)

@[simp] theorem State.setErr_cfg : (s.setErr m).cfg = s.cfg := rfl
@[simp] theorem State.setErr_host : (s.setErr m).host = s.host := rfl
@[simp] theorem State.setErr_st : (s.setErr m).st = s.st := rfl
@[simp] theorem State.setErr_cmd : (s.setErr m).cmd = s.cmd := rfl
@[simp] theorem State.setErr_textIn : (s.setErr m).textIn = s.textIn := rfl
@[simp] theorem State.setErr_bytesIn : (s.setErr m).bytesIn = s.bytesIn := rfl
@[simp] theorem State.setErr_bitsIn : (s.setErr m).bitsIn = s.bitsIn := rfl
@[simp] theorem State.setErr_nbytes : (s.setErr m).nbytes = s.nbytes := rfl
@[simp] theorem State.setErr_nbits : (s.setErr m).nbits = s.nbits := rfl
@[simp] theorem State.setErr_q : (s.setErr m).q = s.q := rfl
@[simp] theorem State.setErr_n : (s.setErr m).n = s.n := rfl
@[simp] theorem State.setErr_p : (s.setErr m).p = s.p := rfl
@[simp] theorem State.setErr_k : (s.setErr m).k = s.k := rfl
@[simp] theorem State.setErr_pol : (s.setErr m).pol = s.pol := rfl
@[simp] theorem State.setErr_err : (s.setErr m).err = true := rfl
@[simp] theorem State.setErr_errMode : (s.setErr m).errMode = BitVec.ofNat 2 m.num := rfl
@[simp] theorem State.setErr_bytesOut : (s.setErr m).bytesOut = s.bytesOut := rfl
@[simp] theorem State.setErr_bitsOut : (s.setErr m).bitsOut = s.bitsOut := rfl
@[simp] theorem State.setErr_waveOut : (s.setErr m).waveOut = s.waveOut := rfl
@[simp] theorem State.setErr_regOut : (s.setErr m).regOut = s.regOut := rfl
@[simp] theorem State.setErr_ended : (s.setErr m).ended = s.ended := rfl

end

/-! ### `State.takeMove` -/

section
variable (s : State)

@[simp] theorem State.takeMove_cfg : (s.takeMove).cfg = s.cfg := rfl
@[simp] theorem State.takeMove_host : (s.takeMove).host = s.host.tail := rfl
@[simp] theorem State.takeMove_st : (s.takeMove).st = s.st := rfl
@[simp] theorem State.takeMove_cmd : (s.takeMove).cmd = s.cmd := rfl
@[simp] theorem State.takeMove_textIn : (s.takeMove).textIn = s.textIn := rfl
@[simp] theorem State.takeMove_bytesIn : (s.takeMove).bytesIn = s.bytesIn := rfl
@[simp] theorem State.takeMove_bitsIn : (s.takeMove).bitsIn = s.bitsIn := rfl
@[simp] theorem State.takeMove_nbytes : (s.takeMove).nbytes = s.nbytes := rfl
@[simp] theorem State.takeMove_nbits : (s.takeMove).nbits = s.nbits := rfl
@[simp] theorem State.takeMove_q : (s.takeMove).q = s.q := rfl
@[simp] theorem State.takeMove_n : (s.takeMove).n = s.n := rfl
@[simp] theorem State.takeMove_p : (s.takeMove).p = s.p := rfl
@[simp] theorem State.takeMove_k : (s.takeMove).k = s.k := rfl
@[simp] theorem State.takeMove_pol : (s.takeMove).pol = s.pol := rfl
@[simp] theorem State.takeMove_err : (s.takeMove).err = s.err := rfl
@[simp] theorem State.takeMove_errMode : (s.takeMove).errMode = s.errMode := rfl
@[simp] theorem State.takeMove_bytesOut : (s.takeMove).bytesOut = s.bytesOut := rfl
@[simp] theorem State.takeMove_bitsOut : (s.takeMove).bitsOut = s.bitsOut := rfl
@[simp] theorem State.takeMove_waveOut : (s.takeMove).waveOut = s.waveOut := rfl
@[simp] theorem State.takeMove_regOut : (s.takeMove).regOut = s.regOut := rfl
@[simp] theorem State.takeMove_ended : (s.takeMove).ended = s.ended := rfl

end

/-! ### `State.freshResults` -/

section
variable (s : State)

@[simp] theorem State.freshResults_cfg : (s.freshResults).cfg = s.cfg := rfl
@[simp] theorem State.freshResults_host : (s.freshResults).host = s.host := rfl
@[simp] theorem State.freshResults_st : (s.freshResults).st = s.st := rfl
@[simp] theorem State.freshResults_cmd : (s.freshResults).cmd = s.cmd := rfl
@[simp] theorem State.freshResults_textIn : (s.freshResults).textIn = s.textIn := rfl
@[simp] theorem State.freshResults_bytesIn : (s.freshResults).bytesIn = s.bytesIn := rfl
@[simp] theorem State.freshResults_bitsIn : (s.freshResults).bitsIn = s.bitsIn := rfl
@[simp] theorem State.freshResults_nbytes : (s.freshResults).nbytes = s.nbytes := rfl
@[simp] theorem State.freshResults_nbits : (s.freshResults).nbits = s.nbits := rfl
@[simp] theorem State.freshResults_q : (s.freshResults).q = s.q := rfl
@[simp] theorem State.freshResults_n : (s.freshResults).n = s.n := rfl
@[simp] theorem State.freshResults_p : (s.freshResults).p = s.p := rfl
@[simp] theorem State.freshResults_k : (s.freshResults).k = s.k := rfl
@[simp] theorem State.freshResults_pol : (s.freshResults).pol = s.pol := rfl
@[simp] theorem State.freshResults_err : (s.freshResults).err = s.err := rfl
@[simp] theorem State.freshResults_errMode : (s.freshResults).errMode = s.errMode := rfl
@[simp] theorem State.freshResults_bytesOut : (s.freshResults).bytesOut = [] := rfl
@[simp] theorem State.freshResults_bitsOut : (s.freshResults).bitsOut = [] := rfl
@[simp] theorem State.freshResults_waveOut : (s.freshResults).waveOut = [] := rfl
@[simp] theorem State.freshResults_regOut : (s.freshResults).regOut = [] := rfl
@[simp] theorem State.freshResults_ended : (s.freshResults).ended = none := rfl

end

/-! ### `State.returnOperand` -/

section
variable (s : State)

@[simp] theorem State.returnOperand_cfg : (s.returnOperand).cfg = s.cfg := rfl
@[simp] theorem State.returnOperand_host : (s.returnOperand).host = s.host := rfl
@[simp] theorem State.returnOperand_st : (s.returnOperand).st = s.st := rfl
@[simp] theorem State.returnOperand_cmd : (s.returnOperand).cmd = s.cmd := rfl
@[simp] theorem State.returnOperand_textIn : (s.returnOperand).textIn = [] := rfl
@[simp] theorem State.returnOperand_bytesIn : (s.returnOperand).bytesIn = [] := rfl
@[simp] theorem State.returnOperand_bitsIn : (s.returnOperand).bitsIn = [] := rfl
@[simp] theorem State.returnOperand_nbytes : (s.returnOperand).nbytes = s.nbytes := rfl
@[simp] theorem State.returnOperand_nbits : (s.returnOperand).nbits = s.nbits := rfl
@[simp] theorem State.returnOperand_q : (s.returnOperand).q = s.q := rfl
@[simp] theorem State.returnOperand_n : (s.returnOperand).n = s.n := rfl
@[simp] theorem State.returnOperand_p : (s.returnOperand).p = s.p := rfl
@[simp] theorem State.returnOperand_k : (s.returnOperand).k = s.k := rfl
@[simp] theorem State.returnOperand_pol : (s.returnOperand).pol = s.pol := rfl
@[simp] theorem State.returnOperand_err : (s.returnOperand).err = s.err := rfl
@[simp] theorem State.returnOperand_errMode : (s.returnOperand).errMode = s.errMode := rfl
@[simp] theorem State.returnOperand_bytesOut : (s.returnOperand).bytesOut = s.bytesOut := rfl
@[simp] theorem State.returnOperand_bitsOut : (s.returnOperand).bitsOut = s.bitsOut := rfl
@[simp] theorem State.returnOperand_waveOut : (s.returnOperand).waveOut = s.waveOut := rfl
@[simp] theorem State.returnOperand_regOut : (s.returnOperand).regOut = s.regOut := rfl
@[simp] theorem State.returnOperand_ended : (s.returnOperand).ended = s.ended := rfl

end

/-! ### `State.accept` -/

section
variable (i : Instr) (s : State)

@[simp] theorem State.accept_cfg : (s.accept i).cfg = s.cfg := rfl
@[simp] theorem State.accept_host : (s.accept i).host = s.host.tail := rfl
@[simp] theorem State.accept_st : (s.accept i).st = s.st := rfl
@[simp] theorem State.accept_cmd : (s.accept i).cmd = encode i := rfl
@[simp] theorem State.accept_textIn : (s.accept i).textIn = s.textIn := rfl
@[simp] theorem State.accept_bytesIn : (s.accept i).bytesIn = s.bytesIn := rfl
@[simp] theorem State.accept_bitsIn : (s.accept i).bitsIn = s.bitsIn := rfl
@[simp] theorem State.accept_nbytes : (s.accept i).nbytes = s.nbytes := rfl
@[simp] theorem State.accept_nbits : (s.accept i).nbits = s.nbits := rfl
@[simp] theorem State.accept_q : (s.accept i).q = s.q := rfl
@[simp] theorem State.accept_n : (s.accept i).n = s.n := rfl
@[simp] theorem State.accept_p : (s.accept i).p = s.p := rfl
@[simp] theorem State.accept_k : (s.accept i).k = s.k := rfl
@[simp] theorem State.accept_pol : (s.accept i).pol = s.pol := rfl
@[simp] theorem State.accept_err : (s.accept i).err = false := rfl
@[simp] theorem State.accept_errMode : (s.accept i).errMode = s.errMode := rfl
@[simp] theorem State.accept_bytesOut : (s.accept i).bytesOut = [] := rfl
@[simp] theorem State.accept_bitsOut : (s.accept i).bitsOut = [] := rfl
@[simp] theorem State.accept_waveOut : (s.accept i).waveOut = [] := rfl
@[simp] theorem State.accept_regOut : (s.accept i).regOut = [] := rfl
@[simp] theorem State.accept_ended : (s.accept i).ended = none := rfl

end

/-! ### `State.complete` -/

section
variable (i : Instr) (s : State)

@[simp] theorem State.complete_cfg : (s.complete i).cfg = s.cfg := rfl
@[simp] theorem State.complete_host : (s.complete i).host = s.host := rfl
@[simp] theorem State.complete_st : (s.complete i).st = .idle := rfl
@[simp] theorem State.complete_cmd : (s.complete i).cmd = s.cmd := rfl
@[simp] theorem State.complete_textIn : (s.complete i).textIn = [] := rfl
@[simp] theorem State.complete_bytesIn : (s.complete i).bytesIn = [] := rfl
@[simp] theorem State.complete_bitsIn : (s.complete i).bitsIn = [] := rfl
@[simp] theorem State.complete_nbytes : (s.complete i).nbytes = s.nbytes := rfl
@[simp] theorem State.complete_nbits : (s.complete i).nbits = s.nbits := rfl
@[simp] theorem State.complete_q : (s.complete i).q = s.q := rfl
@[simp] theorem State.complete_n : (s.complete i).n = s.n := rfl
@[simp] theorem State.complete_p : (s.complete i).p = s.p := rfl
@[simp] theorem State.complete_k : (s.complete i).k = s.k := rfl
@[simp] theorem State.complete_pol : (s.complete i).pol = s.pol := rfl
@[simp] theorem State.complete_err : (s.complete i).err = s.err := rfl
@[simp] theorem State.complete_errMode : (s.complete i).errMode = s.errMode := rfl
@[simp] theorem State.complete_bytesOut : (s.complete i).bytesOut = s.bytesOut := rfl
@[simp] theorem State.complete_bitsOut : (s.complete i).bitsOut = s.bitsOut := rfl
@[simp] theorem State.complete_waveOut : (s.complete i).waveOut = s.waveOut := rfl
@[simp] theorem State.complete_regOut : (s.complete i).regOut = s.regOut := rfl
@[simp] theorem State.complete_ended : (s.complete i).ended = some i := rfl

end

/-! ### `State.raiseInvalidInput` -/

section
variable (m : Mode) (s : State)

@[simp] theorem State.raiseInvalidInput_cfg : (s.raiseInvalidInput m).cfg = s.cfg := rfl
@[simp] theorem State.raiseInvalidInput_host : (s.raiseInvalidInput m).host = s.host := rfl
@[simp] theorem State.raiseInvalidInput_st : (s.raiseInvalidInput m).st = .idle := rfl
@[simp] theorem State.raiseInvalidInput_cmd : (s.raiseInvalidInput m).cmd = s.cmd := rfl
@[simp] theorem State.raiseInvalidInput_textIn : (s.raiseInvalidInput m).textIn = [] := rfl
@[simp] theorem State.raiseInvalidInput_bytesIn : (s.raiseInvalidInput m).bytesIn = [] := rfl
@[simp] theorem State.raiseInvalidInput_bitsIn : (s.raiseInvalidInput m).bitsIn = [] := rfl
@[simp] theorem State.raiseInvalidInput_nbytes : (s.raiseInvalidInput m).nbytes = s.nbytes := rfl
@[simp] theorem State.raiseInvalidInput_nbits : (s.raiseInvalidInput m).nbits = s.nbits := rfl
@[simp] theorem State.raiseInvalidInput_q : (s.raiseInvalidInput m).q = s.q := rfl
@[simp] theorem State.raiseInvalidInput_n : (s.raiseInvalidInput m).n = s.n := rfl
@[simp] theorem State.raiseInvalidInput_p : (s.raiseInvalidInput m).p = s.p := rfl
@[simp] theorem State.raiseInvalidInput_k : (s.raiseInvalidInput m).k = s.k := rfl
@[simp] theorem State.raiseInvalidInput_pol : (s.raiseInvalidInput m).pol = s.pol := rfl
@[simp] theorem State.raiseInvalidInput_err : (s.raiseInvalidInput m).err = true := rfl
@[simp] theorem State.raiseInvalidInput_errMode : (s.raiseInvalidInput m).errMode = BitVec.ofNat 2 m.num := rfl
@[simp] theorem State.raiseInvalidInput_bytesOut : (s.raiseInvalidInput m).bytesOut = [] := rfl
@[simp] theorem State.raiseInvalidInput_bitsOut : (s.raiseInvalidInput m).bitsOut = s.bitsOut := rfl
@[simp] theorem State.raiseInvalidInput_waveOut : (s.raiseInvalidInput m).waveOut = s.waveOut := rfl
@[simp] theorem State.raiseInvalidInput_regOut : (s.raiseInvalidInput m).regOut = s.regOut := rfl
@[simp] theorem State.raiseInvalidInput_ended : (s.raiseInvalidInput m).ended = some (.parse m) := rfl

end

/-! ### `State.latchText` -/

section
variable (t : Text) (s : State)

@[simp] theorem State.latchText_cfg : (s.latchText t).cfg = s.cfg := rfl
@[simp] theorem State.latchText_host : (s.latchText t).host = s.host := rfl
@[simp] theorem State.latchText_st : (s.latchText t).st = s.st := rfl
@[simp] theorem State.latchText_cmd : (s.latchText t).cmd = s.cmd := rfl
@[simp] theorem State.latchText_textIn : (s.latchText t).textIn = t := rfl
@[simp] theorem State.latchText_bytesIn : (s.latchText t).bytesIn = s.bytesIn := rfl
@[simp] theorem State.latchText_bitsIn : (s.latchText t).bitsIn = s.bitsIn := rfl
@[simp] theorem State.latchText_nbytes : (s.latchText t).nbytes = s.nbytes := rfl
@[simp] theorem State.latchText_nbits : (s.latchText t).nbits = s.nbits := rfl
@[simp] theorem State.latchText_q : (s.latchText t).q = s.q := rfl
@[simp] theorem State.latchText_n : (s.latchText t).n = s.n := rfl
@[simp] theorem State.latchText_p : (s.latchText t).p = s.p := rfl
@[simp] theorem State.latchText_k : (s.latchText t).k = s.k := rfl
@[simp] theorem State.latchText_pol : (s.latchText t).pol = s.pol := rfl
@[simp] theorem State.latchText_err : (s.latchText t).err = s.err := rfl
@[simp] theorem State.latchText_errMode : (s.latchText t).errMode = s.errMode := rfl
@[simp] theorem State.latchText_bytesOut : (s.latchText t).bytesOut = s.bytesOut := rfl
@[simp] theorem State.latchText_bitsOut : (s.latchText t).bitsOut = s.bitsOut := rfl
@[simp] theorem State.latchText_waveOut : (s.latchText t).waveOut = s.waveOut := rfl
@[simp] theorem State.latchText_regOut : (s.latchText t).regOut = s.regOut := rfl
@[simp] theorem State.latchText_ended : (s.latchText t).ended = s.ended := rfl

end

/-! ### `State.latchBytes` -/

section
variable (b : List Byte) (s : State)

@[simp] theorem State.latchBytes_cfg : (s.latchBytes b).cfg = s.cfg := rfl
@[simp] theorem State.latchBytes_host : (s.latchBytes b).host = s.host := rfl
@[simp] theorem State.latchBytes_st : (s.latchBytes b).st = s.st := rfl
@[simp] theorem State.latchBytes_cmd : (s.latchBytes b).cmd = s.cmd := rfl
@[simp] theorem State.latchBytes_textIn : (s.latchBytes b).textIn = s.textIn := rfl
@[simp] theorem State.latchBytes_bytesIn : (s.latchBytes b).bytesIn = b := rfl
@[simp] theorem State.latchBytes_bitsIn : (s.latchBytes b).bitsIn = s.bitsIn := rfl
@[simp] theorem State.latchBytes_nbytes : (s.latchBytes b).nbytes = b.length := rfl
@[simp] theorem State.latchBytes_nbits : (s.latchBytes b).nbits = s.nbits := rfl
@[simp] theorem State.latchBytes_q : (s.latchBytes b).q = s.q := rfl
@[simp] theorem State.latchBytes_n : (s.latchBytes b).n = s.n := rfl
@[simp] theorem State.latchBytes_p : (s.latchBytes b).p = s.p := rfl
@[simp] theorem State.latchBytes_k : (s.latchBytes b).k = s.k := rfl
@[simp] theorem State.latchBytes_pol : (s.latchBytes b).pol = s.pol := rfl
@[simp] theorem State.latchBytes_err : (s.latchBytes b).err = s.err := rfl
@[simp] theorem State.latchBytes_errMode : (s.latchBytes b).errMode = s.errMode := rfl
@[simp] theorem State.latchBytes_bytesOut : (s.latchBytes b).bytesOut = s.bytesOut := rfl
@[simp] theorem State.latchBytes_bitsOut : (s.latchBytes b).bitsOut = s.bitsOut := rfl
@[simp] theorem State.latchBytes_waveOut : (s.latchBytes b).waveOut = s.waveOut := rfl
@[simp] theorem State.latchBytes_regOut : (s.latchBytes b).regOut = s.regOut := rfl
@[simp] theorem State.latchBytes_ended : (s.latchBytes b).ended = s.ended := rfl

end

/-! ### `State.latchBits` -/

section
variable (b : List Bit) (s : State)

@[simp] theorem State.latchBits_cfg : (s.latchBits b).cfg = s.cfg := rfl
@[simp] theorem State.latchBits_host : (s.latchBits b).host = s.host := rfl
@[simp] theorem State.latchBits_st : (s.latchBits b).st = s.st := rfl
@[simp] theorem State.latchBits_cmd : (s.latchBits b).cmd = s.cmd := rfl
@[simp] theorem State.latchBits_textIn : (s.latchBits b).textIn = s.textIn := rfl
@[simp] theorem State.latchBits_bytesIn : (s.latchBits b).bytesIn = s.bytesIn := rfl
@[simp] theorem State.latchBits_bitsIn : (s.latchBits b).bitsIn = b := rfl
@[simp] theorem State.latchBits_nbytes : (s.latchBits b).nbytes = s.nbytes := rfl
@[simp] theorem State.latchBits_nbits : (s.latchBits b).nbits = b.length := rfl
@[simp] theorem State.latchBits_q : (s.latchBits b).q = s.q := rfl
@[simp] theorem State.latchBits_n : (s.latchBits b).n = s.n := rfl
@[simp] theorem State.latchBits_p : (s.latchBits b).p = s.p := rfl
@[simp] theorem State.latchBits_k : (s.latchBits b).k = s.k := rfl
@[simp] theorem State.latchBits_pol : (s.latchBits b).pol = s.pol := rfl
@[simp] theorem State.latchBits_err : (s.latchBits b).err = s.err := rfl
@[simp] theorem State.latchBits_errMode : (s.latchBits b).errMode = s.errMode := rfl
@[simp] theorem State.latchBits_bytesOut : (s.latchBits b).bytesOut = s.bytesOut := rfl
@[simp] theorem State.latchBits_bitsOut : (s.latchBits b).bitsOut = s.bitsOut := rfl
@[simp] theorem State.latchBits_waveOut : (s.latchBits b).waveOut = s.waveOut := rfl
@[simp] theorem State.latchBits_regOut : (s.latchBits b).regOut = s.regOut := rfl
@[simp] theorem State.latchBits_ended : (s.latchBits b).ended = s.ended := rfl

end

/-! ### `State.acceptExtract` -/

section
variable (r : Request) (s : State)

@[simp] theorem State.acceptExtract_cfg : (s.acceptExtract r).cfg = s.cfg := rfl
@[simp] theorem State.acceptExtract_host : (s.acceptExtract r).host = s.host := rfl
@[simp] theorem State.acceptExtract_st : (s.acceptExtract r).st = .busy := rfl
@[simp] theorem State.acceptExtract_cmd : (s.acceptExtract r).cmd = s.cmd := rfl
@[simp] theorem State.acceptExtract_textIn : (s.acceptExtract r).textIn = s.textIn := rfl
@[simp] theorem State.acceptExtract_bytesIn : (s.acceptExtract r).bytesIn = r.bytes := rfl
@[simp] theorem State.acceptExtract_bitsIn : (s.acceptExtract r).bitsIn = s.bitsIn := rfl
@[simp] theorem State.acceptExtract_nbytes : (s.acceptExtract r).nbytes = r.bytes.length := rfl
@[simp] theorem State.acceptExtract_nbits : (s.acceptExtract r).nbits = s.nbits := rfl
@[simp] theorem State.acceptExtract_q : (s.acceptExtract r).q = 0 := rfl
@[simp] theorem State.acceptExtract_n : (s.acceptExtract r).n = s.n := rfl
@[simp] theorem State.acceptExtract_p : (s.acceptExtract r).p = s.p := rfl
@[simp] theorem State.acceptExtract_k : (s.acceptExtract r).k = s.k := rfl
@[simp] theorem State.acceptExtract_pol : (s.acceptExtract r).pol = s.pol := rfl
@[simp] theorem State.acceptExtract_err : (s.acceptExtract r).err = s.err := rfl
@[simp] theorem State.acceptExtract_errMode : (s.acceptExtract r).errMode = s.errMode := rfl
@[simp] theorem State.acceptExtract_bytesOut : (s.acceptExtract r).bytesOut = s.bytesOut := rfl
@[simp] theorem State.acceptExtract_bitsOut : (s.acceptExtract r).bitsOut = [] := rfl
@[simp] theorem State.acceptExtract_waveOut : (s.acceptExtract r).waveOut = s.waveOut := rfl
@[simp] theorem State.acceptExtract_regOut : (s.acceptExtract r).regOut = s.regOut := rfl
@[simp] theorem State.acceptExtract_ended : (s.acceptExtract r).ended = s.ended := rfl

end

/-! ### `State.acceptEnc` -/

section
variable (r : Request) (s : State)

@[simp] theorem State.acceptEnc_cfg : (s.acceptEnc r).cfg = s.cfg := rfl
@[simp] theorem State.acceptEnc_host : (s.acceptEnc r).host = s.host := rfl
@[simp] theorem State.acceptEnc_st : (s.acceptEnc r).st = .busy := rfl
@[simp] theorem State.acceptEnc_cmd : (s.acceptEnc r).cmd = s.cmd := rfl
@[simp] theorem State.acceptEnc_textIn : (s.acceptEnc r).textIn = s.textIn := rfl
@[simp] theorem State.acceptEnc_bytesIn : (s.acceptEnc r).bytesIn = s.bytesIn := rfl
@[simp] theorem State.acceptEnc_bitsIn : (s.acceptEnc r).bitsIn = r.bits := rfl
@[simp] theorem State.acceptEnc_nbytes : (s.acceptEnc r).nbytes = s.nbytes := rfl
@[simp] theorem State.acceptEnc_nbits : (s.acceptEnc r).nbits = r.bits.length := rfl
@[simp] theorem State.acceptEnc_q : (s.acceptEnc r).q = s.q := rfl
@[simp] theorem State.acceptEnc_n : (s.acceptEnc r).n = 0 := rfl
@[simp] theorem State.acceptEnc_p : (s.acceptEnc r).p = 0 := rfl
@[simp] theorem State.acceptEnc_k : (s.acceptEnc r).k = 0 := rfl
@[simp] theorem State.acceptEnc_pol : (s.acceptEnc r).pol = .minus := rfl
@[simp] theorem State.acceptEnc_err : (s.acceptEnc r).err = s.err := rfl
@[simp] theorem State.acceptEnc_errMode : (s.acceptEnc r).errMode = s.errMode := rfl
@[simp] theorem State.acceptEnc_bytesOut : (s.acceptEnc r).bytesOut = s.bytesOut := rfl
@[simp] theorem State.acceptEnc_bitsOut : (s.acceptEnc r).bitsOut = s.bitsOut := rfl
@[simp] theorem State.acceptEnc_waveOut : (s.acceptEnc r).waveOut = [] := rfl
@[simp] theorem State.acceptEnc_regOut : (s.acceptEnc r).regOut = s.regOut := rfl
@[simp] theorem State.acceptEnc_ended : (s.acceptEnc r).ended = s.ended := rfl

end

/-! ### `State.emitBit` -/

section
variable (b : Bit) (s : State)

@[simp] theorem State.emitBit_cfg : (s.emitBit b).cfg = s.cfg := rfl
@[simp] theorem State.emitBit_host : (s.emitBit b).host = s.host := rfl
@[simp] theorem State.emitBit_st : (s.emitBit b).st = s.st := rfl
@[simp] theorem State.emitBit_cmd : (s.emitBit b).cmd = s.cmd := rfl
@[simp] theorem State.emitBit_textIn : (s.emitBit b).textIn = s.textIn := rfl
@[simp] theorem State.emitBit_bytesIn : (s.emitBit b).bytesIn = s.bytesIn := rfl
@[simp] theorem State.emitBit_bitsIn : (s.emitBit b).bitsIn = s.bitsIn := rfl
@[simp] theorem State.emitBit_nbytes : (s.emitBit b).nbytes = s.nbytes := rfl
@[simp] theorem State.emitBit_nbits : (s.emitBit b).nbits = s.nbits := rfl
@[simp] theorem State.emitBit_q : (s.emitBit b).q = s.q + 1 := rfl
@[simp] theorem State.emitBit_n : (s.emitBit b).n = s.n := rfl
@[simp] theorem State.emitBit_p : (s.emitBit b).p = s.p := rfl
@[simp] theorem State.emitBit_k : (s.emitBit b).k = s.k := rfl
@[simp] theorem State.emitBit_pol : (s.emitBit b).pol = s.pol := rfl
@[simp] theorem State.emitBit_err : (s.emitBit b).err = s.err := rfl
@[simp] theorem State.emitBit_errMode : (s.emitBit b).errMode = s.errMode := rfl
@[simp] theorem State.emitBit_bytesOut : (s.emitBit b).bytesOut = s.bytesOut := rfl
@[simp] theorem State.emitBit_bitsOut : (s.emitBit b).bitsOut = s.bitsOut ++ [b] := rfl
@[simp] theorem State.emitBit_waveOut : (s.emitBit b).waveOut = s.waveOut := rfl
@[simp] theorem State.emitBit_regOut : (s.emitBit b).regOut = s.regOut := rfl
@[simp] theorem State.emitBit_ended : (s.emitBit b).ended = s.ended := rfl

end

/-! ### `State.advancePhase` -/

section
variable (s : State)

@[simp] theorem State.advancePhase_cfg : (s.advancePhase).cfg = s.cfg := by unfold State.advancePhase; split <;> rfl
@[simp] theorem State.advancePhase_host : (s.advancePhase).host = s.host := by unfold State.advancePhase; split <;> rfl
@[simp] theorem State.advancePhase_st : (s.advancePhase).st = s.st := by unfold State.advancePhase; split <;> rfl
@[simp] theorem State.advancePhase_cmd : (s.advancePhase).cmd = s.cmd := by unfold State.advancePhase; split <;> rfl
@[simp] theorem State.advancePhase_textIn : (s.advancePhase).textIn = s.textIn := by unfold State.advancePhase; split <;> rfl
@[simp] theorem State.advancePhase_bytesIn : (s.advancePhase).bytesIn = s.bytesIn := by unfold State.advancePhase; split <;> rfl
@[simp] theorem State.advancePhase_bitsIn : (s.advancePhase).bitsIn = s.bitsIn := by unfold State.advancePhase; split <;> rfl
@[simp] theorem State.advancePhase_nbytes : (s.advancePhase).nbytes = s.nbytes := by unfold State.advancePhase; split <;> rfl
@[simp] theorem State.advancePhase_nbits : (s.advancePhase).nbits = s.nbits := by unfold State.advancePhase; split <;> rfl
@[simp] theorem State.advancePhase_q : (s.advancePhase).q = s.q := by unfold State.advancePhase; split <;> rfl
@[simp] theorem State.advancePhase_n : (s.advancePhase).n = if s.p + 1 < s.cfg.spb then s.n else s.n + 1 := by unfold State.advancePhase; split <;> rfl
@[simp] theorem State.advancePhase_p : (s.advancePhase).p = if s.p + 1 < s.cfg.spb then s.p + 1 else 0 := by unfold State.advancePhase; split <;> rfl
@[simp] theorem State.advancePhase_k : (s.advancePhase).k = s.k := by unfold State.advancePhase; split <;> rfl
@[simp] theorem State.advancePhase_pol : (s.advancePhase).pol = s.pol := by unfold State.advancePhase; split <;> rfl
@[simp] theorem State.advancePhase_err : (s.advancePhase).err = s.err := by unfold State.advancePhase; split <;> rfl
@[simp] theorem State.advancePhase_errMode : (s.advancePhase).errMode = s.errMode := by unfold State.advancePhase; split <;> rfl
@[simp] theorem State.advancePhase_bytesOut : (s.advancePhase).bytesOut = s.bytesOut := by unfold State.advancePhase; split <;> rfl
@[simp] theorem State.advancePhase_bitsOut : (s.advancePhase).bitsOut = s.bitsOut := by unfold State.advancePhase; split <;> rfl
@[simp] theorem State.advancePhase_waveOut : (s.advancePhase).waveOut = s.waveOut := by unfold State.advancePhase; split <;> rfl
@[simp] theorem State.advancePhase_regOut : (s.advancePhase).regOut = s.regOut := by unfold State.advancePhase; split <;> rfl
@[simp] theorem State.advancePhase_ended : (s.advancePhase).ended = s.ended := by unfold State.advancePhase; split <;> rfl

end

/-! ### `State.withSample` -/

section
variable (v : Level) (pol : Polarity) (s : State)

@[simp] theorem State.withSample_cfg : (s.withSample v pol).cfg = s.cfg := rfl
@[simp] theorem State.withSample_host : (s.withSample v pol).host = s.host := rfl
@[simp] theorem State.withSample_st : (s.withSample v pol).st = s.st := rfl
@[simp] theorem State.withSample_cmd : (s.withSample v pol).cmd = s.cmd := rfl
@[simp] theorem State.withSample_textIn : (s.withSample v pol).textIn = s.textIn := rfl
@[simp] theorem State.withSample_bytesIn : (s.withSample v pol).bytesIn = s.bytesIn := rfl
@[simp] theorem State.withSample_bitsIn : (s.withSample v pol).bitsIn = s.bitsIn := rfl
@[simp] theorem State.withSample_nbytes : (s.withSample v pol).nbytes = s.nbytes := rfl
@[simp] theorem State.withSample_nbits : (s.withSample v pol).nbits = s.nbits := rfl
@[simp] theorem State.withSample_q : (s.withSample v pol).q = s.q := rfl
@[simp] theorem State.withSample_n : (s.withSample v pol).n = if s.p + 1 < s.cfg.spb then s.n else s.n + 1 := rfl
@[simp] theorem State.withSample_p : (s.withSample v pol).p = if s.p + 1 < s.cfg.spb then s.p + 1 else 0 := rfl
@[simp] theorem State.withSample_k : (s.withSample v pol).k = s.k + 1 := rfl
@[simp] theorem State.withSample_pol : (s.withSample v pol).pol = pol := rfl
@[simp] theorem State.withSample_err : (s.withSample v pol).err = s.err := rfl
@[simp] theorem State.withSample_errMode : (s.withSample v pol).errMode = s.errMode := rfl
@[simp] theorem State.withSample_bytesOut : (s.withSample v pol).bytesOut = s.bytesOut := rfl
@[simp] theorem State.withSample_bitsOut : (s.withSample v pol).bitsOut = s.bitsOut := rfl
@[simp] theorem State.withSample_waveOut : (s.withSample v pol).waveOut = s.waveOut ++ [{ time := s.k, level := v }] := rfl
@[simp] theorem State.withSample_regOut : (s.withSample v pol).regOut = s.regOut := rfl
@[simp] theorem State.withSample_ended : (s.withSample v pol).ended = s.ended := rfl

end

/-! ### `State.passWait` -/

section
variable (s : State)

@[simp] theorem State.passWait_cfg : (s.passWait).cfg = s.cfg := by unfold State.passWait; split <;> rfl
@[simp] theorem State.passWait_host :
    (s.passWait).host = if s.host.head? = some .wait then s.host.tail else s.host := by
  unfold State.passWait
  rcases hs : s.host with _ | ⟨m, rest⟩
  · simp [hs]
  · cases m <;> simp [hs, State.takeMove]
@[simp] theorem State.passWait_st : (s.passWait).st = s.st := by unfold State.passWait; split <;> rfl
@[simp] theorem State.passWait_cmd : (s.passWait).cmd = s.cmd := by unfold State.passWait; split <;> rfl
@[simp] theorem State.passWait_textIn : (s.passWait).textIn = s.textIn := by unfold State.passWait; split <;> rfl
@[simp] theorem State.passWait_bytesIn : (s.passWait).bytesIn = s.bytesIn := by unfold State.passWait; split <;> rfl
@[simp] theorem State.passWait_bitsIn : (s.passWait).bitsIn = s.bitsIn := by unfold State.passWait; split <;> rfl
@[simp] theorem State.passWait_nbytes : (s.passWait).nbytes = s.nbytes := by unfold State.passWait; split <;> rfl
@[simp] theorem State.passWait_nbits : (s.passWait).nbits = s.nbits := by unfold State.passWait; split <;> rfl
@[simp] theorem State.passWait_q : (s.passWait).q = s.q := by unfold State.passWait; split <;> rfl
@[simp] theorem State.passWait_n : (s.passWait).n = s.n := by unfold State.passWait; split <;> rfl
@[simp] theorem State.passWait_p : (s.passWait).p = s.p := by unfold State.passWait; split <;> rfl
@[simp] theorem State.passWait_k : (s.passWait).k = s.k := by unfold State.passWait; split <;> rfl
@[simp] theorem State.passWait_pol : (s.passWait).pol = s.pol := by unfold State.passWait; split <;> rfl
@[simp] theorem State.passWait_err : (s.passWait).err = s.err := by unfold State.passWait; split <;> rfl
@[simp] theorem State.passWait_errMode : (s.passWait).errMode = s.errMode := by unfold State.passWait; split <;> rfl
@[simp] theorem State.passWait_bytesOut : (s.passWait).bytesOut = s.bytesOut := by unfold State.passWait; split <;> rfl
@[simp] theorem State.passWait_bitsOut : (s.passWait).bitsOut = s.bitsOut := by unfold State.passWait; split <;> rfl
@[simp] theorem State.passWait_waveOut : (s.passWait).waveOut = s.waveOut := by unfold State.passWait; split <;> rfl
@[simp] theorem State.passWait_regOut : (s.passWait).regOut = s.regOut := by unfold State.passWait; split <;> rfl
@[simp] theorem State.passWait_ended : (s.passWait).ended = s.ended := by unfold State.passWait; split <;> rfl

end

/-! ### `State.takeReset` -/

section
variable (s : State)

@[simp] theorem State.takeReset_cfg : (s.takeReset).cfg = s.cfg := rfl
@[simp] theorem State.takeReset_host : (s.takeReset).host = s.host.tail := rfl
@[simp] theorem State.takeReset_st : (s.takeReset).st = .idle := rfl
@[simp] theorem State.takeReset_cmd : (s.takeReset).cmd = 0 := rfl
@[simp] theorem State.takeReset_textIn : (s.takeReset).textIn = [] := rfl
@[simp] theorem State.takeReset_bytesIn : (s.takeReset).bytesIn = [] := rfl
@[simp] theorem State.takeReset_bitsIn : (s.takeReset).bitsIn = [] := rfl
@[simp] theorem State.takeReset_nbytes : (s.takeReset).nbytes = 0 := rfl
@[simp] theorem State.takeReset_nbits : (s.takeReset).nbits = 0 := rfl
@[simp] theorem State.takeReset_q : (s.takeReset).q = 0 := rfl
@[simp] theorem State.takeReset_n : (s.takeReset).n = 0 := rfl
@[simp] theorem State.takeReset_p : (s.takeReset).p = 0 := rfl
@[simp] theorem State.takeReset_k : (s.takeReset).k = 0 := rfl
@[simp] theorem State.takeReset_pol : (s.takeReset).pol = .minus := rfl
@[simp] theorem State.takeReset_err : (s.takeReset).err = false := rfl
@[simp] theorem State.takeReset_errMode : (s.takeReset).errMode = 0 := rfl
@[simp] theorem State.takeReset_bytesOut : (s.takeReset).bytesOut = [] := rfl
@[simp] theorem State.takeReset_bitsOut : (s.takeReset).bitsOut = [] := rfl
@[simp] theorem State.takeReset_waveOut : (s.takeReset).waveOut = [] := rfl
@[simp] theorem State.takeReset_regOut : (s.takeReset).regOut = [] := rfl
@[simp] theorem State.takeReset_ended : (s.takeReset).ended = none := rfl

end

end Sys2Proof.Machine
end

