-- ==== Sys2Proof/Laws/Exec.lean ====
section
/-! SUPPORT. What each shared operation and each meaning can do, said once. -/

namespace Sys2Proof.Machine

/-! ### The sequences a state holds -/

@[simp] theorem noOperand_iff {s : State} : NoOperand s ↔ s.textIn = [] ∧ s.bytesIn = [] ∧ s.bitsIn = [] :=
  ⟨fun h => ⟨h.textIn, h.bytesIn, h.bitsIn⟩, fun ⟨a, b, c⟩ => ⟨a, b, c⟩⟩

@[simp] theorem onlyOperand_iff {kind : OperandKind} {s : State} :
    OnlyOperand kind s ↔
      (kind ≠ .text → s.textIn = []) ∧ (kind ≠ .bytes → s.bytesIn = []) ∧ (kind ≠ .bits → s.bitsIn = []) :=
  ⟨fun h => ⟨h.textIn, h.bytesIn, h.bitsIn⟩, fun ⟨a, b, c⟩ => ⟨a, b, c⟩⟩

@[simp] theorem onlyResult_iff {kind : OperandKind} {s : State} :
    OnlyResult kind s ↔ (kind ≠ .text → s.bytesOut = []) ∧ (kind ≠ .bytes → s.bitsOut = []) ∧
      (kind ≠ .bits → s.waveOut = []) ∧ (kind ≠ .nothing → s.regOut = []) :=
  ⟨fun h => ⟨h.bytesOut, h.bitsOut, h.waveOut, h.regOut⟩, fun ⟨a, b, c, d⟩ => ⟨a, b, c, d⟩⟩

@[simp] theorem Instr.operand_parse (m : Mode) : (Instr.parse m).operand = .text := by cases m <;> rfl

@[simp] theorem Instr.operand_enc (c : Scheme) : (Instr.enc c).operand = .bits := by cases c <;> rfl

/-! ### The response -/

/-- When there is a response, and which (43_sampler_step_machine.md R188, R191; 70_reset_and_hazards.md R244). -/
theorem responseOf_eq_some {i : Instr} {s : State} {resp : Response} :
    responseOf i s = some resp ↔ s.st = .idle ∧ s.ended = some i ∧ resultOf i s = some resp := by
  cases hs : s.st <;> simp [responseOf, hs]

theorem responseOf_of_busy {i : Instr} {s : State} (h : s.st = .busy) : responseOf i s = none := by
  simp [responseOf, h]

theorem responseOf_of_ended_none {i : Instr} {s : State} (h : s.ended = none) : responseOf i s = none := by
  cases hs : s.st <;> simp [responseOf, hs, h]

/-! ### Accepting -/

theorem offered_eq_some {s : State} {r : Request} : s.offered = some r ↔ ∃ rest, s.host = .request r :: rest := by
  unfold State.offered
  rcases s.host with _ | ⟨m, rest⟩
  · simp
  · cases m <;> simp

theorem Accepts.offered {i r rest s} (h : Accepts i r rest s) : s.offered = some r := offered_eq_some.2 ⟨rest, h.offer⟩

theorem Accepts.host_tail {i r rest s} (h : Accepts i r rest s) : s.host.tail = rest := by rw [h.offer]; rfl

/-- The accept step of any command, when it is enabled. -/
theorem onAccept_of_accepts {i r rest s} {act : Request → State → State} (h : Accepts i r rest s) :
    onAccept i s act = .next (act r (s.accept i)) := by
  simp [onAccept, h.offered, h.fits]

/-- All an accept step can do when it goes on. -/
theorem onAccept_eq_next {i s t} {act : Request → State → State} :
    onAccept i s act = .next t ↔
      ∃ r, s.offered = some r ∧ operandFits s.cfg i r = true ∧ t = act r (s.accept i) := by
  unfold onAccept
  rcases s.offered with _ | r
  · simp
  · by_cases h : operandFits s.cfg i r = true
    · simpa [h] using eq_comm
    · simp [h]

/-- An accept step faults only when the host offers nothing. -/
theorem onAccept_eq_fault {i s f} {act : Request → State → State} (h : onAccept i s act = .fault f) :
    s.offered = none := by
  unfold onAccept at h
  rcases hs : s.offered with _ | r
  · rfl
  · rw [hs] at h
    by_cases hf : operandFits s.cfg i r = true <;> simp [hf] at h

/-- An accept step is refused only for an operand over capacity. -/
theorem onAccept_eq_refused {i s ρ} {act : Request → State → State} :
    onAccept i s act = .refused ρ ↔ ∃ r, s.offered = some r ∧ operandFits s.cfg i r = false ∧ ρ = .overCapacity := by
  unfold onAccept
  rcases s.offered with _ | r
  · simp
  · by_cases hf : operandFits s.cfg i r = true
    · simp [hf]
    · simpa [hf] using eq_comm

/-! ### The meanings, class by class -/

theorem exec_parse (m : Mode) (s : State) : exec (.parse m) s = parseCommand (.parse m) m (parseText · m) s := by
  cases m <;> rfl

theorem exec_enc (c : Scheme) (s : State) : exec (.enc c) s = encCommand c s := by cases c <;> rfl

/-- Every command is a `PARSE`, `EXTRACT`, an `ENC` or `SCHEMES`. -/
theorem Instr.class_cases (i : Instr) : (∃ m, i = .parse m) ∨ i = .extract ∨ (∃ c, i = .enc c) ∨ i = .schemes := by
  cases i
  · exact .inl ⟨.integer, rfl⟩
  · exact .inl ⟨.hexBytes, rfl⟩
  · exact .inl ⟨.binary, rfl⟩
  · exact .inr (.inl rfl)
  · exact .inr (.inr (.inl ⟨.nrzu, rfl⟩))
  · exact .inr (.inr (.inl ⟨.nrzb, rfl⟩))
  · exact .inr (.inr (.inl ⟨.rzu, rfl⟩))
  · exact .inr (.inr (.inl ⟨.rzb, rfl⟩))
  · exact .inr (.inr (.inl ⟨.ami, rfl⟩))
  · exact .inr (.inr (.inl ⟨.man, rfl⟩))
  · exact .inr (.inr (.inl ⟨.mark, rfl⟩))
  · exact .inr (.inr (.inl ⟨.space, rfl⟩))
  · exact .inr (.inr (.inl ⟨.clk, rfl⟩))
  · exact .inr (.inr (.inr rfl))

/-- What a `PARSE` leaves, given what the parser answered: the complete response, or the error. -/
theorem parse_effect {i : Instr} {m : Mode} {f : Config → Text → Option (List Byte)} {s t : State} :
    parseCommand i m f s = .next t ↔ s.st = .idle ∧ ∃ r, s.offered = some r ∧ operandFits s.cfg i r = true ∧
      ((f s.cfg r.text = none ∧ t = ((s.accept i).latchText r.text).raiseInvalidInput m) ∨
        ∃ b, f s.cfg r.text = some b ∧
          t = ({ (s.accept i).latchText r.text with bytesOut := b } : State).clearErr.complete i) := by
  unfold parseCommand
  rcases s.st
  · simp only [onAccept_eq_next, true_and, State.latchText_cfg, State.accept_cfg, State.latchText_textIn]
    refine exists_congr fun r => and_congr_right fun _ => and_congr_right fun _ => ?_
    rcases f s.cfg r.text with _ | b <;> simp
  · simp

theorem sample_eq_withSample (c : Scheme) (x : Bit) (s : State) :
    s.sample c x = s.withSample (level c s.cfg.spb x s.p (polFor c x s.p s.pol)) (polFor c x s.p s.pol) := by
  unfold State.sample State.emitSample State.advancePhase State.withSample
  by_cases h : s.p + 1 < s.cfg.spb <;> simp [h, memWrite]

/-- All an `ENC` command can do when it goes on: accept, one sample, or completion. -/
theorem enc_effect {c : Scheme} {s t : State} (h : encCommand c s = .next t) :
    (s.st = .idle ∧ ∃ r, s.offered = some r ∧ operandFits s.cfg (.enc c) r = true ∧
      t = (s.accept (.enc c)).acceptEnc r) ∨
    (s.st = .busy ∧ s.n < s.nbits ∧ ∃ x, s.bitsIn[s.n]? = some x ∧
      t = s.withSample (level c s.cfg.spb x s.p (polFor c x s.p s.pol)) (polFor c x s.p s.pol)) ∨
    (s.st = .busy ∧ s.n = s.nbits ∧ t = s.complete (.enc c)) := by
  unfold encCommand at h
  rcases hs : s.st
  · rw [hs] at h
    obtain ⟨r, h1, h2, h3⟩ := onAccept_eq_next.1 h
    exact .inl ⟨rfl, r, h1, h2, h3⟩
  · simp only [hs] at h
    by_cases hn : s.n < s.nbits
    · simp only [hn, if_true, memRead] at h
      rcases hb : s.bitsIn[s.n]? with _ | x
      · simp [hb] at h
      · simp only [hb, Host.Outcome.next.injEq] at h
        exact .inr (.inl ⟨rfl, hn, x, rfl, by rw [← h, sample_eq_withSample]⟩)
    · by_cases he : s.n = s.nbits
      · rw [if_neg hn, if_pos he] at h
        exact .inr (.inr ⟨rfl, he, (Host.Outcome.next.inj h).symm⟩)
      · rw [if_neg hn, if_neg he] at h
        cases h

/-- All `EXTRACT` can do when it goes on: accept, one bit, or completion. -/
theorem extract_effect {s t : State} (h : execExtract s = .next t) :
    (s.st = .idle ∧ ∃ r, s.offered = some r ∧ operandFits s.cfg .extract r = true ∧
      t = (s.accept .extract).acceptExtract r) ∨
    (s.st = .busy ∧ s.q < 8 * s.nbytes ∧ ∃ v, s.bytesIn[s.q / 8]? = some v ∧
      t = s.emitBit (bitOfByte v (s.q % 8))) ∨
    (s.st = .busy ∧ s.q = 8 * s.nbytes ∧ t = s.complete .extract) := by
  unfold execExtract at h
  rcases hs : s.st
  · rw [hs] at h
    obtain ⟨r, h1, h2, h3⟩ := onAccept_eq_next.1 h
    exact .inl ⟨rfl, r, h1, h2, h3⟩
  · simp only [hs, extractBit, memRead] at h
    by_cases hq : s.q < 8 * s.nbytes
    · simp only [hq, if_true] at h
      rcases hb : s.bytesIn[s.q / 8]? with _ | v
      · simp [hb] at h
      · simp only [hb, Host.Outcome.next.injEq] at h
        exact .inr (.inl ⟨rfl, hq, v, rfl, h.symm⟩)
    · by_cases he : s.q = 8 * s.nbytes
      · rw [if_neg hq, if_pos he] at h
        exact .inr (.inr ⟨rfl, he, (Host.Outcome.next.inj h).symm⟩)
      · rw [if_neg hq, if_neg he] at h
        cases h

/-- All `SCHEMES` can do when it goes on. -/
theorem schemes_effect {s t : State} :
    execSchemes s = .next t ↔ s.st = .idle ∧ ∃ r, s.offered = some r ∧ operandFits s.cfg .schemes r = true ∧
      t = ({ s.accept .schemes with regOut := registry } : State).clearErr.complete .schemes := by
  unfold execSchemes
  rcases s.st <;> simp [onAccept_eq_next]

/-! ### Refusals and faults -/

/-- What every meaning does on an idle block is an accept step. -/
theorem exec_idle {s : State} (i : Instr) (h : s.st = .idle) : ∃ act, exec i s = onAccept i s act := by
  rcases Instr.class_cases i with ⟨m, rfl⟩ | rfl | ⟨c, rfl⟩ | rfl
  · rw [exec_parse, parseCommand, h]
    exact ⟨_, rfl⟩
  · rw [exec, execExtract, h]
    exact ⟨_, rfl⟩
  · rw [exec_enc, encCommand, h]
    exact ⟨_, rfl⟩
  · rw [exec, execSchemes, h]
    exact ⟨_, rfl⟩

/-- A meaning is never refused while `BUSY`. -/
theorem exec_busy_not_refused {s : State} (i : Instr) (h : s.st = .busy) (ρ : Refusal) : exec i s ≠ .refused ρ := by
  intro hx
  rcases Instr.class_cases i with ⟨m, rfl⟩ | rfl | ⟨c, rfl⟩ | rfl
  · rw [exec_parse, parseCommand, h] at hx
    cases hx
  · rw [exec, execExtract, h] at hx
    dsimp only [extractBit] at hx
    split at hx
    · split at hx <;> cases hx
    · split at hx <;> cases hx
  · rw [exec_enc, encCommand, h] at hx
    dsimp only at hx
    split at hx
    · split at hx <;> cases hx
    · split at hx <;> cases hx
  · rw [exec, execSchemes, h] at hx
    cases hx

/-- A meaning is refused only at accept, for an operand over capacity. -/
theorem exec_refused {i : Instr} {s : State} {ρ : Refusal} (h : exec i s = .refused ρ) :
    s.st = .idle ∧ ∃ r, s.offered = some r ∧ operandFits s.cfg i r = false ∧ ρ = .overCapacity := by
  rcases hs : s.st with _ | _
  · obtain ⟨act, ha⟩ := exec_idle i hs
    rw [ha] at h
    exact ⟨rfl, onAccept_eq_refused.1 h⟩
  · exact absurd h (exec_busy_not_refused i hs ρ)

/-- An idle block's meaning faults only when the host offers nothing. -/
theorem exec_idle_fault {i : Instr} {s : State} {f : Fault} (hs : s.st = .idle) (h : exec i s = .fault f) :
    s.offered = none := by
  obtain ⟨act, ha⟩ := exec_idle i hs
  rw [ha] at h
  exact onAccept_eq_fault h

/-! ### The enabled steps of a running request -/

theorem enc_sample_of {c : Scheme} {x : Bit} {s : State} (h : AtSample x s) :
    encCommand c s = .next (s.withSample (level c s.cfg.spb x s.p (polFor c x s.p s.pol)) (polFor c x s.p s.pol)) := by
  simp [encCommand, h.busy, h.more, memRead, h.bit, sample_eq_withSample]

theorem enc_complete_of {c : Scheme} {s : State} (hb : s.st = .busy) (hn : s.n = s.nbits) :
    encCommand c s = .next (s.complete (.enc c)) := by
  simp [encCommand, hb, hn]

theorem extract_bit_of {v : Byte} {s : State} (hb : s.st = .busy) (hq : s.q < 8 * s.nbytes)
    (hv : s.bytesIn[s.q / 8]? = some v) : execExtract s = .next (s.emitBit (bitOfByte v (s.q % 8))) := by
  simp [execExtract, hb, hq, extractBit, memRead, hv]

theorem extract_complete_of {s : State} (hb : s.st = .busy) (hq : s.q = 8 * s.nbytes) :
    execExtract s = .next (s.complete .extract) := by
  simp [execExtract, hb, hq]

end Sys2Proof.Machine
end

