-- ==== Sys2Proof/Laws/Functional.lean ====
section
/-! SUPPORT. The functional forms, element by element. -/

namespace Sys2Proof.Machine

/-! ### Levels -/

/-- Only AMI looks at the polarity. -/
theorem level_pol_of_ne_ami {c : Scheme} (h : c ≠ .ami) (spb x p a b) : level c spb x p a = level c spb x p b := by
  cases c <;> first | rfl | exact absurd rfl h

theorem bitBlock_length (spb f) : (bitBlock spb f).length = spb := by simp [bitBlock]

/-- Sample `k` carries index `k`. -/
theorem stamp_getElem? (l : List Level) (k : Nat) : (stamp l)[k]? = l[k]?.map (fun v => { time := k, level := v }) := by
  simp [stamp, List.getElem?_zipIdx, Function.comp_def]

theorem stamp_length (l) : (stamp l).length = l.length := by simp [stamp]

/-- Manchester by half-blocks. -/
theorem level_man_eq (spb x p) : level .man spb x p .minus = if p < spb / 2 then (if x then .neg else .pos) else (if x then .pos else .neg) := by
  cases x <;> by_cases h : p < spb / 2 <;> simp [level, lvlMan, firstHalf, halfOf, h]

/-! ### Polarity -/

/-- One more bit flips the polarity exactly when it is 1. -/
theorem polAfter_snoc (l : List Bit) (x : Bit) : polAfter (l ++ [x]) = if x then (polAfter l).flip else polAfter l := by
  cases x
  · simp [polAfter]
  · simp only [polAfter, List.count_append, List.count_singleton_self, if_true]
    by_cases h : l.count true % 2 = 1
    · have : (l.count true + 1) % 2 ≠ 1 := by omega
      simp [h, this, Polarity.flip]
    · have : (l.count true + 1) % 2 = 1 := by omega
      simp [h, this, Polarity.flip]

theorem take_succ_of_getElem? {l : List Bit} {n : Nat} {x : Bit} (h : l[n]? = some x) : l.take (n+1) = l.take n ++ [x] := by
  rw [List.take_add_one, h]; rfl

/-! ### Bits -/

/-- Bit `i` of a byte, counted from the most significant end. -/
theorem bitOfByte_eq_getLsbD (v : Byte) (i : Nat) : bitOfByte v i = v.getLsbD (7 - i) := by
  unfold bitOfByte
  rw [← BitVec.testBit_toNat, Nat.testBit_eq_decide_div_mod_eq]
  rfl

/-- The eight bits of a byte read back as its value. -/
theorem valBits_of_byte : ∀ v : Byte, valBits ((List.range 8).map (bitOfByte v)) = v.toNat := by decide

/-- Bit `i` of byte `j`. -/
theorem extractBits_getElem? (b : List Byte) (j i : Nat) (hi : i < 8) : (extractBits b)[8 * j + i]? = b[j]?.map (fun v => bitOfByte v i) := by
  induction b generalizing j with
  | nil => simp [extractBits]
  | cons v b ih =>
    have e : extractBits (v :: b) = (List.range 8).map (bitOfByte v) ++ extractBits b := rfl
    rw [e]
    cases j with
    | zero =>
      rw [List.getElem?_append_left (by simp; omega)]
      simp [hi]
    | succ j =>
      rw [List.getElem?_append_right (by simp; omega)]
      have : 8 * (j + 1) + i - ((List.range 8).map (bitOfByte v)).length = 8 * j + i := by simp; omega
      rw [this, ih]; simp

end Sys2Proof.Machine
end

