-- ==== Sys2Proof/Laws/Parser.lean ====
section
/-! SUPPORT. What the Value Parser reads, against the grammar of 40_value_parser.md. -/

namespace Sys2Proof.Machine

/-! ### Digits -/

/-- The characters that have a hexadecimal value. -/
theorem hexVal_eq_some (c : Char) (v : Nat) : hexVal? c = some v ↔ IsDigit 16 c v := by
  have k0 : ('0' ≤ c) ↔ 48 ≤ c.toNat := by rw [Char.le_def, UInt32.le_iff_toNat_le]; rfl
  have k1 : (c ≤ '9') ↔ c.toNat ≤ 57 := by rw [Char.le_def, UInt32.le_iff_toNat_le]; rfl
  have k2 : ('a' ≤ c) ↔ 97 ≤ c.toNat := by rw [Char.le_def, UInt32.le_iff_toNat_le]; rfl
  have k3 : (c ≤ 'f') ↔ c.toNat ≤ 102 := by rw [Char.le_def, UInt32.le_iff_toNat_le]; rfl
  have k4 : ('A' ≤ c) ↔ 65 ≤ c.toNat := by rw [Char.le_def, UInt32.le_iff_toNat_le]; rfl
  have k5 : (c ≤ 'F') ↔ c.toNat ≤ 70 := by rw [Char.le_def, UInt32.le_iff_toNat_le]; rfl
  have e0 : '0'.toNat = 48 := rfl
  have e1 : 'a'.toNat = 97 := rfl
  have e2 : 'A'.toNat = 65 := rfl
  unfold hexVal? IsDigit
  simp only [k0, k1, k2, k3, k4, k5, e0, e1, e2]
  split
  · simp only [Option.some.injEq]; omega
  · split
    · simp only [Option.some.injEq]; omega
    · split
      · simp only [Option.some.injEq]; omega
      · simp only [reduceCtorEq, false_iff]; omega

theorem isDigit_iff_lt_and_hex {b c v} : IsDigit b c v ↔ v < b ∧ IsDigit 16 c v := by
  unfold IsDigit; constructor
  · rintro ⟨a, b, c⟩; exact ⟨a, b, b, c⟩
  · rintro ⟨a, b, _, c⟩; exact ⟨a, b, c⟩

/-- The characters that are digits of a base. -/
theorem digitVal_eq_some (b c v) : digitVal? b c = some v ↔ IsDigit b c v := by
  rw [isDigit_iff_lt_and_hex, ← hexVal_eq_some, digitVal?, Option.filter_eq_some_iff]
  simp [and_comm]

theorem mapM_digitVal_eq_some (b : Nat) (t : Text) (ds : List Nat) : t.mapM (digitVal? b) = some ds ↔ List.Forall₂ (IsDigit b) t ds := by
  induction t generalizing ds with
  | nil => simp
  | cons c t ih =>
    rw [List.mapM_cons]
    constructor
    · intro h
      rcases hc : digitVal? b c with _ | v
      · simp [hc] at h
      · rcases ht : t.mapM (digitVal? b) with _ | vs
        · simp [hc, ht] at h
        · simp [hc, ht] at h
          subst h
          exact .cons ((digitVal_eq_some _ _ _).1 hc) ((ih _).1 ht)
    · intro h
      cases h with
      | cons h1 h2 => simp [(digitVal_eq_some _ _ _).2 h1, (ih _).2 h2]

theorem valBase_snoc (b l x) : valBase b (l ++ [x]) = valBase b l * b + x := by simp [valBase]

/-- A string of digits, digit by digit. -/
theorem digits_iff_forall₂ (b t v) : Digits b t v ↔ t ≠ [] ∧ ∃ ds, List.Forall₂ (IsDigit b) t ds ∧ v = valBase b ds := by
  constructor
  · intro h
    induction h with
    | one h => exact ⟨by simp, [_], .cons h .nil, by simp [valBase]⟩
    | @snoc t a c v h hd ih =>
      obtain ⟨_, ds, h1, rfl⟩ := ih
      exact ⟨by simp, ds ++ [v], List.rel_append h1 (.cons hd .nil), by rw [valBase_snoc]⟩
  · rintro ⟨hne, ds, h, rfl⟩
    induction t using List.reverseRecOn generalizing ds with
    | nil => exact absurd rfl hne
    | append_singleton t c ih =>
      have hl := h.length_eq
      obtain ⟨es, e, rfl⟩ : ∃ es e, ds = es ++ [e] := by
        rcases List.eq_nil_or_concat ds with rfl | ⟨es, e, rfl⟩
        · simp at hl
        · exact ⟨es, e, by simp⟩
      have hsplit : List.Forall₂ (IsDigit b) t es ∧ IsDigit b c e := by
        have hl' : t.length = es.length := by simpa using hl
        have hr := h.get
        refine ⟨?_, ?_⟩
        · rw [List.forall₂_iff_get]
          refine ⟨hl', ?_⟩
          intro i h1 h2
          have := hr (i := i) (by simp; omega) (by simp; omega)
          simpa [List.getElem_append_left h1, List.getElem_append_left h2] using this
        · have := hr (i := t.length) (by simp) (by simp; omega)
          simpa [hl'] using this
      rw [valBase_snoc]
      by_cases ht : t = []
      · subst ht
        have : es = [] := by have := hsplit.1.length_eq; exact List.length_eq_zero_iff.1 (by simpa using this.symm)
        subst this
        simpa [valBase] using Digits.one hsplit.2
      · exact .snoc (ih ht es hsplit.1) hsplit.2

/-- What is read as a non-empty string of digits. -/
theorem digitsVal_eq_some (b t v) : digitsVal? b t = some v ↔ Digits b t v := by
  rw [digits_iff_forall₂, digitsVal?]
  by_cases h : t = []
  · simp [h]
  · simp only [h, if_false, Option.map_eq_some_iff, mapM_digitVal_eq_some, ne_eq, not_false_eq_true, true_and]
    exact ⟨fun ⟨a, b, c⟩ => ⟨a, b, c.symm⟩, fun ⟨a, b, c⟩ => ⟨a, b, c.symm⟩⟩

/-- What is read as a magnitude. -/
theorem magnitude_eq_some (t v) : magnitude? t = some v ↔ Magnitude t v := by
  rcases t with _ | ⟨c, rest⟩
  · simp only [magnitude?, reduceCtorEq, false_iff]; intro h; cases h
  · by_cases hc : c = '0'
    · subst hc
      rcases rest with _ | ⟨l, ds⟩
      · simp only [magnitude?, if_true, Option.some.injEq]
        constructor
        · rintro rfl; exact .zero
        · intro h; cases h with
          | zero => rfl
          | decimal h => exact absurd rfl h
      · simp only [magnitude?, if_true, baseOfLetter]
        by_cases h1 : l = 'x' ∨ l = 'X'
        · simp only [h1, if_true, digitsVal_eq_some]
          constructor
          · exact .hexlit h1
          · intro h; cases h with
            | decimal h => exact absurd rfl h
            | hexlit _ h => exact h
            | octlit h _ => rcases h1 with rfl | rfl <;> simp at h
            | binlit h _ => rcases h1 with rfl | rfl <;> simp at h
        · by_cases h2 : l = 'o' ∨ l = 'O'
          · simp only [h1, h2, if_true, if_false, digitsVal_eq_some]
            constructor
            · exact .octlit h2
            · intro h; cases h with
              | decimal h => exact absurd rfl h
              | hexlit h _ => exact absurd h h1
              | octlit _ h => exact h
              | binlit h _ => rcases h2 with rfl | rfl <;> simp at h
          · by_cases h3 : l = 'b' ∨ l = 'B'
            · simp only [h1, h2, h3, if_true, if_false, digitsVal_eq_some]
              constructor
              · exact .binlit h3
              · intro h; cases h with
                | decimal h => exact absurd rfl h
                | hexlit h _ => exact absurd h h1
                | octlit h _ => exact absurd h h2
                | binlit _ h => exact h
            · simp only [h1, h2, h3, if_false, reduceCtorEq, false_iff]
              intro h; cases h with
              | decimal h => exact absurd rfl h
              | hexlit h _ => exact absurd h h1
              | octlit h _ => exact absurd h h2
              | binlit h _ => exact absurd h h3
    · simp only [magnitude?, hc, if_false, digitsVal_eq_some]
      constructor
      · exact .decimal hc
      · intro h; cases h with
        | zero => exact absurd rfl hc
        | decimal _ h => exact h
        | hexlit => exact absurd rfl hc
        | octlit => exact absurd rfl hc
        | binlit => exact absurd rfl hc

theorem not_isDigit_minus (b v) : ¬ IsDigit b '-' v := by
  unfold IsDigit
  have e0 : '0'.toNat = 48 := rfl
  have e1 : 'a'.toNat = 97 := rfl
  have e2 : 'A'.toNat = 65 := rfl
  have e3 : '-'.toNat = 45 := rfl
  rw [e0, e1, e2, e3]; omega

theorem not_magnitude_minus (t v) : ¬ Magnitude ('-' :: t) v := by
  intro h; cases h with
  | decimal _ h =>
    obtain ⟨_, ds, h, _⟩ := (digits_iff_forall₂ _ _ _).1 h
    cases h with
    | cons h _ => exact not_isDigit_minus _ _ h

/-! ### Values -/

theorem valBase_append (base a b) : valBase base (a ++ b) = valBase base a * base ^ b.length + valBase base b := by
  induction b using List.reverseRecOn with
  | nil => simp [valBase]
  | append_singleton l x ih =>
    rw [← List.append_assoc]
    have : ∀ m, valBase base (m ++ [x]) = valBase base m * base + x := by intro m; simp [valBase]
    rw [this, this, ih]; simp [pow_succ]; ring

/-- A number is below the base to the count of its digits. -/
theorem valBase_lt (base) (l : List Nat) (h : ∀ d ∈ l, d < base) : valBase base l < base ^ l.length := by
  induction l using List.reverseRecOn with
  | nil => simp [valBase]
  | append_singleton l x ih =>
    rw [valBase_append]
    have h1 := ih (fun d hd => h d (by simp [hd]))
    have h2 := h x (by simp)
    simp [valBase, pow_succ]
    calc _ < valBase base l * base + base := by unfold valBase; omega
      _ = (valBase base l + 1) * base := by ring
      _ ≤ _ := Nat.mul_le_mul_right _ h1

theorem bytesOfNat_length (v) : (bytesOfNat v).length = max 1 ((bitLen v + 7) / 8) := by simp [bytesOfNat]

/-- Byte `j` of a serialised value. -/
theorem bytesOfNat_getElem (v j) (h : j < (bytesOfNat v).length) : ((bytesOfNat v)[j]).toNat = v / 256 ^ ((bytesOfNat v).length - 1 - j) % 256 := by
  rw [bytesOfNat_length]
  simp [bytesOfNat]

/-! ### Relaxed texts -/

@[simp] theorem trimText_nothing (plus : Bool) (separators : List Char) (t : Text) :
    trimText ⟨plus, [], separators⟩ t = t := by
  cases t <;> simp [trimText]

@[simp] theorem dropSeparators_nothing (plus : Bool) (around : List Char) (afterDigit : Bool) (t : Text) :
    dropSeparators ⟨plus, around, []⟩ afterDigit t = t := by
  induction t generalizing afterDigit with
  | nil => rfl
  | cons c t ih => simp [dropSeparators, ih]

/-- A text that holds none of the separators is left as it is. -/
theorem dropSeparators_of_none (r : Relaxation) (afterDigit : Bool) (t : Text) (h : ∀ c ∈ t, c ∉ r.separators) :
    dropSeparators r afterDigit t = t := by
  induction t generalizing afterDigit with
  | nil => rfl
  | cons c t ih => simp [dropSeparators, h c (by simp), ih _ fun d hd => h d (by simp [hd])]

@[simp] theorem dropPlus_nothing (around separators : List Char) (t : Text) :
    dropPlus ⟨false, around, separators⟩ t = t := by
  cases t <;> simp [dropPlus]

/-- Every setting of `INT_EXT` answers `invalid` for the empty text (R106). -/
@[simp] theorem intExt_empty (cfg : Config) : intExt? cfg [] = none := rfl

/-! ### Stripping -/

/-- The digits a stripping parser keeps. -/
theorem filterMap_of_keptDigits (b : Nat) (keep : List Char) (hk : ∀ c, c ∈ keep ↔ ∃ v, digitVal? b c = some v) (t ds) (h : KeptDigits b keep t ds) :
    t.filterMap (digitVal? b) = ds := by
  unfold KeptDigits at h
  induction t generalizing ds with
  | nil => cases h; rfl
  | cons c t ih =>
    by_cases hc : c ∈ keep
    · rw [List.filter_cons_of_pos (by simpa using hc)] at h
      cases h with
      | cons h1 h2 =>
        rw [List.filterMap_cons_some ((digitVal_eq_some _ _ _).2 h1), ih _ h2]
    · rw [List.filter_cons_of_neg (by simpa using hc)] at h
      have : digitVal? b c = none := by
        rcases e : digitVal? b c with _ | v
        · rfl
        · exact absurd ((hk c).2 ⟨v, e⟩) hc
      rw [List.filterMap_cons_none this, ih _ h]

theorem char_eq_of_toNat_eq {c d : Char} (h : c.toNat = d.toNat) : c = d := Char.toNat_inj.1 h

theorem mem_hexChars_iff (c) : c ∈ hexChars ↔ ∃ v, digitVal? 16 c = some v := by
  simp only [digitVal_eq_some]
  constructor
  · intro h
    have : ∀ c ∈ hexChars, ∃ v, digitVal? 16 c = some v := by
      intro c hc
      have : ∀ c ∈ hexChars, (digitVal? 16 c).isSome := List.all_eq_true.1 (by decide)
      exact Option.isSome_iff_exists.1 (this c hc)
    obtain ⟨v, hv⟩ := this c h
    exact ⟨v, (digitVal_eq_some _ _ _).1 hv⟩
  · rintro ⟨v, _, hv, h⟩
    have e0 : '0'.toNat = 48 := rfl
    have e1 : 'a'.toNat = 97 := rfl
    have e2 : 'A'.toNat = 65 := rfl
    rw [e0, e1, e2] at h
    have key : ∀ n, n ∈ hexChars.map Char.toNat → c.toNat = n → c ∈ hexChars := by
      intro n hn e
      obtain ⟨d, hd, rfl⟩ := List.mem_map.1 hn
      rw [char_eq_of_toNat_eq e]; exact hd
    apply key c.toNat _ rfl
    have : hexChars.map Char.toNat = [48,49,50,51,52,53,54,55,56,57,97,98,99,100,101,102,65,66,67,68,69,70] := by decide
    rw [this]
    simp only [List.mem_cons, List.not_mem_nil, or_false]
    omega

theorem mem_binChars_iff (c) : c ∈ binChars ↔ ∃ v, digitVal? 2 c = some v := by
  simp only [digitVal_eq_some]
  constructor
  · intro h
    have : ∀ c ∈ binChars, (digitVal? 2 c).isSome := List.all_eq_true.1 (by decide)
    obtain ⟨v, hv⟩ := Option.isSome_iff_exists.1 (this c h)
    exact ⟨v, (digitVal_eq_some _ _ _).1 hv⟩
  · rintro ⟨v, _, hv, h⟩
    have e0 : '0'.toNat = 48 := rfl
    have e1 : 'a'.toNat = 97 := rfl
    have e2 : 'A'.toNat = 65 := rfl
    rw [e0, e1, e2] at h
    have : c.toNat = 48 ∨ c.toNat = 49 := by omega
    rcases this with h | h
    · rw [char_eq_of_toNat_eq (d := '0') h]; decide
    · rw [char_eq_of_toNat_eq (d := '1') h]; decide

theorem padLeft_length (per ds) (hp : 1 ≤ per) : (padLeft per ds).length = (ds.length + per - 1) / per * per := by
  simp [padLeft]
  have : ds.length ≤ (ds.length + per - 1) / per * per := by
    have h := Nat.div_add_mod' (ds.length + per - 1) per
    have := Nat.mod_lt (ds.length + per - 1) hp
    omega
  omega

theorem keptDigits_lt {b keep t ds} (h : KeptDigits b keep t ds) : ∀ d ∈ ds, d < b := by
  unfold KeptDigits at h
  intro d hd
  obtain ⟨i, hi, rfl⟩ := List.mem_iff_getElem.1 hd
  have := h.get (i := i) (by rw [h.length_eq]; exact hi) hi
  exact this.1

end Sys2Proof.Machine
end

