-- ==== Sys2Proof/Laws/PerInstr.lean ====
section
/-! SUPPORT. A statement about every command as syntax, one lemma a command. -/

namespace Sys2Proof.Laws.OpField

/-- The command's word is well placed: its `OP` class is the one of its operand kind, and its word is not reserved (R77, R89). -/
def Statement (i : Instr) : Prop :=
  (opField (encode i)).toNat = (match i.operand with
    | .text => 0
    | .bytes => 1
    | .bits => 2
    | .nothing => 3) ∧ reservedWord (encode i) = false ∧ i.wf = true

theorem parseInt : Statement .parseInt := ⟨rfl, rfl, rfl⟩
theorem parseHex : Statement .parseHex := ⟨rfl, rfl, rfl⟩
theorem parseBin : Statement .parseBin := ⟨rfl, rfl, rfl⟩
theorem extract : Statement .extract := ⟨rfl, rfl, rfl⟩
theorem encNrzu : Statement .encNrzu := ⟨rfl, rfl, rfl⟩
theorem encNrzb : Statement .encNrzb := ⟨rfl, rfl, rfl⟩
theorem encRzu : Statement .encRzu := ⟨rfl, rfl, rfl⟩
theorem encRzb : Statement .encRzb := ⟨rfl, rfl, rfl⟩
theorem encAmi : Statement .encAmi := ⟨rfl, rfl, rfl⟩
theorem encMan : Statement .encMan := ⟨rfl, rfl, rfl⟩
theorem encMark : Statement .encMark := ⟨rfl, rfl, rfl⟩
theorem encSpace : Statement .encSpace := ⟨rfl, rfl, rfl⟩
theorem encClk : Statement .encClk := ⟨rfl, rfl, rfl⟩
theorem schemes : Statement .schemes := ⟨rfl, rfl, rfl⟩

end Sys2Proof.Laws.OpField
end

