-- ==== Sys2Proof/Laws/Step.lean ====
section
/-! SUPPORT. What a step can do, said once, and how runs of steps compose. -/

namespace Sys2Proof.Machine

/-- All a step can do when it goes on: take a reset, do nothing, or run the command the sequencer works on. -/
theorem step_effect {s t : State} (h : step s = .next t) :
    1 ≤ s.cfg.spb ∧
      ((s.resetAsserted = true ∧ t = s.takeReset) ∨
        (s.resetAsserted = false ∧ s.fetch = none ∧ t = s.passWait) ∨
        (s.resetAsserted = false ∧ ∃ w i, s.fetch = some w ∧ decode w = .instr i ∧ exec i s.passWait = .next t)) := by
  unfold step at h
  by_cases h0 : s.cfg.spb = 0
  · simp [h0] at h
  refine ⟨Nat.one_le_iff_ne_zero.2 h0, ?_⟩
  rw [if_neg h0] at h
  by_cases hr : s.resetAsserted = true
  · simp only [hr, if_true, Host.Outcome.next.injEq] at h
    exact .inl ⟨hr, h.symm⟩
  · rw [if_neg hr] at h
    refine .inr ?_
    have hr' : s.resetAsserted = false := by simpa using hr
    rcases hf : s.fetch with _ | w
    · simp only [hf, Host.Outcome.next.injEq] at h
      exact .inl ⟨hr', rfl, h.symm⟩
    · simp only [hf] at h
      rcases hd : decode w with i | why
      · simp only [hd] at h
        exact .inr ⟨hr', w, i, rfl, hd, h⟩
      · simp only [hd, badWord] at h
        rcases hs : s.st <;> simp [hs] at h

theorem not_resetAsserted_of_resetFree {s : State} (h : ResetFree s.host) : s.resetAsserted = false := by
  unfold State.resetAsserted
  rcases hs : s.host with _ | ⟨m, rest⟩
  · rfl
  · cases m
    · rfl
    · rfl
    · exact absurd (by rw [hs]; exact List.mem_cons_self) h

theorem resetFree_passWait {s : State} (h : ResetFree s.host) : ResetFree s.passWait.host := by
  rw [State.passWait_host]
  split
  · exact fun hm => h (List.mem_of_mem_tail hm)
  · exact h

/-- The step of a block that works on command `i` while no reset is asserted. -/
theorem step_of_fetch {s : State} {w : Byte} {i : Instr} (hspb : 1 ≤ s.cfg.spb) (hr : s.resetAsserted = false)
    (hf : s.fetch = some w) (hd : decode w = .instr i) : step s = exec i s.passWait := by
  simp [step, Nat.one_le_iff_ne_zero.1 hspb, hr, hf, hd]

theorem fetch_of_busy {s : State} (h : s.st = .busy) : s.fetch = some s.cmd := by simp [State.fetch, h]

theorem passWait_of_request {s : State} {r : Request} {rest : List HostMove} (h : s.host = .request r :: rest) :
    s.passWait = s := by simp [State.passWait, h]

/-- The step that accepts an offered request. -/
theorem step_of_accepts {i r rest s} (h : Accepts i r rest s) (hd : decode r.word = .instr i) : step s = exec i s := by
  have hr : s.resetAsserted = false := by simp [State.resetAsserted, h.offer]
  have hf : s.fetch = some r.word := by simp [State.fetch, h.idle, h.offered]
  rw [step_of_fetch h.spb hr hf hd, passWait_of_request h.offer]

@[simp] theorem runSteps_zero (s : State) : runSteps 0 s = .next s := rfl

theorem runSteps_succ {k : Nat} {s t : State} (h : step s = .next t) : runSteps (k + 1) s = runSteps k t := by
  simp [runSteps, h]

theorem runSteps_add {j k : Nat} {s t : State} (h : runSteps j s = .next t) : runSteps (j + k) s = runSteps k t := by
  induction j generalizing s with
  | zero => simp_all
  | succ j ih =>
    rw [Nat.succ_add]
    rcases hs : step s with u | f | ρ
    · rw [runSteps_succ hs] at h ⊢
      exact ih h
    · simp [runSteps, hs] at h
    · simp [runSteps, hs] at h

/-- One more step of the interface's run, for any machine. -/
theorem coreRun_succ (M : Host.Core) (k : Nat) (s : M.State) :
    M.run (k + 1) s = match M.step s with
      | .next t => M.run k t
      | .fault f => .fault f
      | .refused r => .refused r := by
  rcases h : M.step s with t | f | r <;> simp [Host.Core.run, h]

/-- The model's own run is the interface's. -/
theorem runSteps_eq_core_run (k : Nat) (s : State) : runSteps k s = Host.Core.run Sys2Proof.core k s := by
  induction k generalizing s with
  | zero => exact (Host.Core.run.eq_1 Sys2Proof.core s).symm
  | succ k ih =>
    refine Eq.trans ?_ (coreRun_succ Sys2Proof.core k s).symm
    have hc : Sys2Proof.core.step s = step s := rfl
    rw [runSteps, hc]
    rcases step s with u | f | ρ
    · exact ih u
    · rfl
    · rfl

end Sys2Proof.Machine
end

