-- ==== Sys2Proof/Laws/Running.lean ====
section
/-! SUPPORT. The invariant of a running request, step by step. -/

namespace Sys2Proof.Machine

/-! ### Words -/

theorem decode_encode_enc (c : Scheme) : decode (encode (.enc c)) = .instr (.enc c) := by cases c <;> rfl

theorem encode_enc_ne_extract (c : Scheme) : encode (.enc c) ≠ encode .extract := by cases c <;> decide

theorem encode_enc_inj {c d : Scheme} (h : encode (.enc c) = encode (.enc d)) : c = d := by
  have := decode_encode_enc c
  rw [h, decode_encode_enc d] at this
  cases c <;> cases d <;> first | rfl | (simp [Instr.enc] at this)

theorem reservedWord_encode (i : Instr) : reservedWord (encode i) = false := by cases i <;> decide

theorem errMode_num_le (m : Mode) : (BitVec.ofNat 2 m.num).toNat ≤ 2 := by cases m <;> decide

/-! ### The invariant of a running request -/

theorem encRunning_passWait {c s} (h : EncRunning c s) : EncRunning c s.passWait :=
  ⟨by simpa using h.nbits, by simpa using h.n, by simpa using h.p, by simpa using h.k, by simpa using h.atEnd,
    by simpa using h.wave, by simpa using h.times, by simpa [State.begunBits] using h.pol⟩

theorem extractRunning_passWait {s} (h : ExtractRunning s) : ExtractRunning s.passWait :=
  ⟨by simpa using h.nbytes, by simpa using h.q, by simpa using h.bitsOut⟩

/-- Samples are left exactly when bits are. -/
theorem encRunning_k_lt_iff {c s} (he : EncRunning c s) : s.k < s.nbits * s.cfg.spb ↔ s.n < s.nbits := by
  constructor
  · intro h
    rcases Nat.lt_or_ge s.n s.nbits with h1 | h1
    · exact h1
    · have : s.n = s.nbits := le_antisymm he.n h1
      have := he.atEnd this
      have := he.k
      simp_all
  · intro h
    have := he.k; have := he.p
    calc s.k < (s.n + 1) * s.cfg.spb := by rw [Nat.succ_mul]; omega
      _ ≤ _ := Nat.mul_le_mul_right _ h

/-- `POL` in force for a sample of a running request. -/
theorem polFor_of_encRunning {c x s} (h : EncRunning c s) (hx : s.bitsIn[s.n]? = some x) :
    polFor c x s.p s.pol = if c = .ami then polAfter (s.bitsIn.take (s.n + 1)) else .minus := by
  have hp := h.pol
  unfold polFor
  by_cases hc : c = .ami
  · subst hc
    simp only [if_true] at hp ⊢
    rw [hp, State.begunBits]
    by_cases h0 : s.p = 0
    · simp only [h0, lt_irrefl, if_false, take_succ_of_getElem? hx, polAfter_snoc, true_and]
    · have : 0 < s.p := by omega
      simp [h0, this]
  · simp [hc] at hp ⊢
    exact hp

/-- A sample step keeps the invariant. -/
theorem encRunning_sample {c s} (hspb : 1 ≤ s.cfg.spb) (hb : s.st = .busy) (h : EncRunning c s) (hn : s.n < s.nbits) :
    ∃ x, AtSample x s ∧
      EncRunning c (s.withSample (level c s.cfg.spb x s.p (polFor c x s.p s.pol)) (polFor c x s.p s.pol)) := by
  have hlt : s.n < s.bitsIn.length := h.nbits ▸ hn
  refine ⟨s.bitsIn[s.n], ⟨hspb, hb, hn, List.getElem?_eq_getElem hlt⟩, ?_⟩
  have hx : s.bitsIn[s.n]? = some s.bitsIn[s.n] := List.getElem?_eq_getElem hlt
  have hp := h.p
  have hk := h.k
  constructor
  · simpa using h.nbits
  · simp only [State.withSample_n, State.withSample_nbits]; split <;> omega
  · simp only [State.withSample_p, State.withSample_cfg]; split <;> omega
  · simp only [State.withSample_p, State.withSample_cfg, State.withSample_k, State.withSample_n]
    split
    · omega
    · rw [Nat.succ_mul]; omega
  · simp only [State.withSample_p, State.withSample_nbits, State.withSample_n]
    split <;> omega
  · simp [h.wave]
  · simp [h.times, List.range_succ]
  · simp only [State.withSample_pol, polFor_of_encRunning h hx, State.begunBits, State.withSample_p, State.withSample_n, State.withSample_bitsIn]
    by_cases e : s.p + 1 < s.cfg.spb <;> simp [e]

/-- An accept step sets it up. -/
theorem encRunning_accept {c r} {s : State} (hspb : 1 ≤ s.cfg.spb) :
    EncRunning c ((s.accept (.enc c)).acceptEnc r) := by
  constructor <;> simp [State.begunBits, polAfter]
  omega

/-- A bit step keeps the invariant. -/
theorem extractRunning_emitBit {s v} (h : ExtractRunning s) (hq : s.q < 8 * s.nbytes) :
    ExtractRunning (s.emitBit v) := by
  constructor
  · simpa using h.nbytes
  · simp; omega
  · simp [h.bitsOut]

end Sys2Proof.Machine
end

