-- ==== Sys2Proof/Tests/Slice0.lean ====
section
/-! SUPPORT. Tests: words written out from 30_encoding.md, rows of 95_test_vectors.md one step at a time, ill-formed terms
that the checks refuse, and for each statement with hypotheses a state that meets them. -/

namespace Sys2Proof.Tests

open Sys2Proof.Machine

/-! ### Small states -/

def cfgOf (spb : Nat) : Config := { Config.reference with spb := spb }

/-- An idle block whose host offers `r` and then makes the moves `rest`. -/
def offering (spb : Nat) (r : Request) (rest : List HostMove) : State := State.resetWith (cfgOf spb) (.request r :: rest)

/-- A block in the middle of an `ENC` request. -/
def inEnc (c : Scheme) (spb : Nat) (bits : List Bit) (n p : Nat) (pol : Polarity) (wave : List Sample) : State :=
  { State.resetWith (cfgOf spb) [] with
    st := .busy, cmd := encode (.enc c), bitsIn := bits, nbits := bits.length, n := n, p := p, k := n * spb + p,
    pol := pol, waveOut := wave }

/-- A block in the middle of an `EXTRACT` request. -/
def inExtract (b : List Byte) (q : Nat) (bits : List Bit) : State :=
  { State.resetWith (cfgOf 2) [] with
    st := .busy, cmd := encode .extract, bytesIn := b, nbytes := b.length, q := q, bitsOut := bits }

/-- What a view of the next state shows, if there is one. -/
def after {α : Type} (o : Host.Outcome State Fault Refusal) (view : State → α) : Option α :=
  match o with
  | .next t => some (view t)
  | .fault _ => none
  | .refused _ => none

/-- The bytes and the error flag one `PARSE` step leaves. -/
def parsed (m : Mode) (t : Text) : Option (List Byte × Bool × BitVec 2 × Status) :=
  after (step (offering 2 (Request.parse m t) [])) fun t => (t.bytesOut, t.err, t.errMode, t.st)

/-- The sample one step of a running `ENC` request writes, and the polarity it leaves. -/
def sampled (c : Scheme) (spb : Nat) (bits : List Bit) (n p : Nat) (pol : Polarity) : Option (List Sample × Polarity) :=
  after (step (inEnc c spb bits n p pol [])) fun t => (t.waveOut, t.pol)

/-! ### Decoding: `OP` in bits 7 to 4, `SEL` in bits 3 to 0 (R75 to R80) -/

theorem test_decode_parse_int : decode 0b0000_0000 = .instr .parseInt := rfl
theorem test_decode_parse_hex : decode 0b0000_0001 = .instr .parseHex := rfl
theorem test_decode_parse_bin : decode 0b0000_0010 = .instr .parseBin := rfl
theorem test_decode_extract : decode 0b0001_0000 = .instr .extract := rfl
theorem test_decode_enc_nrzu : decode 0b0010_0000 = .instr .encNrzu := rfl
theorem test_decode_enc_nrzb : decode 0b0010_0001 = .instr .encNrzb := rfl
theorem test_decode_enc_rzu : decode 0b0010_0010 = .instr .encRzu := rfl
theorem test_decode_enc_rzb : decode 0b0010_0011 = .instr .encRzb := rfl
theorem test_decode_enc_ami : decode 0b0010_0100 = .instr .encAmi := rfl
theorem test_decode_enc_man : decode 0b0010_0101 = .instr .encMan := rfl
theorem test_decode_enc_mark : decode 0b0010_0110 = .instr .encMark := rfl
theorem test_decode_enc_space : decode 0b0010_0111 = .instr .encSpace := rfl
theorem test_decode_enc_clk : decode 0b0010_1000 = .instr .encClk := rfl
theorem test_decode_schemes : decode 0b0011_0000 = .instr .schemes := rfl

/-- The reserved words named in 95_test_vectors.md 2.1, with the clause of R89. -/
theorem test_decode_reserved :
    ([0x03, 0x0F, 0x11, 0x1F, 0x29, 0x2F, 0x31, 0x3F, 0x40, 0x80, 0xFF] : List Byte).map decode =
      [.reserved .parseMode, .reserved .parseMode, .reserved .extractSel, .reserved .extractSel, .reserved .encScheme,
        .reserved .encScheme, .reserved .schemesSel, .reserved .schemesSel, .reserved .opClass, .reserved .opClass,
        .reserved .opClass] := by decide

theorem test_decodeTableWord : (decodeTableWord 8 0x24, decodeTableWord 8 0x29, decodeTableWord 8 0x124) =
    (some .encAmi, none, none) := by decide

/-- Every command's word, placed where the reset state fetches, is run by the very next step. -/
theorem test_withFetchWord_runs :
    (Instr.all.map fun i => after (step (State.reset.withFetchWord 8 (encode i).toNat)) State.cmd) =
      Instr.all.map fun i => some (encode i) := by decide

/-! ### Ill-formed terms are refused -/

theorem test_wf_config_no_samples : (cfgOf 0).wf = false := rfl
theorem test_wf_config_empty_text : ({ Config.reference with intExt := .listed [([], 5)] } : Config).wf = false := by decide
theorem test_wf_config_reference : Config.reference.wf = true := by decide
theorem test_wf_request_reserved : ([0x03, 0x11, 0x29, 0x31, 0x40] : List Byte).all (fun w =>
    !({ word := w, text := [], bytes := [], bits := [] } : Request).wf) = true := by decide
theorem test_wf_request_command : (Request.enc .clk [true]).wf = true := by decide
theorem test_wf_instr_all : Instr.all.all Instr.wf = true := rfl

/-! ### One step each (95_test_vectors.md) -/

theorem test_parse_int_256 : parsed .integer ['2', '5', '6'] = some ([0x01, 0x00], false, 0, .idle) := by decide
theorem test_parse_int_negative : parsed .integer ['-', '5'] = some ([], true, 0, .idle) := by decide
theorem test_parse_hex_odd : parsed .hexBytes ['a', 'b', 'c'] = some ([0x0A, 0xBC], false, 0, .idle) := by decide
theorem test_parse_hex_none : parsed .hexBytes ['z', 'z'] = some ([], true, 1, .idle) := by decide
theorem test_parse_bin_nine : parsed .binary ['1', '0', '0', '0', '0', '0', '0', '0', ' ', '1'] =
    some ([0x01, 0x01], false, 0, .idle) := by decide
theorem test_parse_bin_none : parsed .binary [] = some ([], true, 2, .idle) := by decide

/-- `0x1A` is 00011010: the bit at position 3 is 1. -/
theorem test_extract_bit : after (step (inExtract [0x1A] 3 [false, false, false]))
    (fun t => (t.bitsOut, t.q, t.st)) = some ([false, false, false, true], 4, .busy) := by decide

/-- An empty operand: the completion step is the first step after accept (R136). -/
theorem test_extract_empty : after (step (inExtract [] 0 [])) (fun t => (t.bitsOut, t.st)) = some ([], .idle) := by decide

theorem test_enc_nrzu : (sampled .nrzu 3 [true, false] 0 2 .minus, sampled .nrzu 3 [true, false] 1 0 .minus) =
    (some ([⟨2, .pos⟩], .minus), some ([⟨3, .zero⟩], .minus)) := by decide
theorem test_enc_nrzb : (sampled .nrzb 3 [true, false] 0 2 .minus, sampled .nrzb 3 [true, false] 1 0 .minus) =
    (some ([⟨2, .pos⟩], .minus), some ([⟨3, .neg⟩], .minus)) := by decide
theorem test_enc_rzu : (sampled .rzu 5 [true] 0 1 .minus, sampled .rzu 5 [true] 0 2 .minus) =
    (some ([⟨1, .pos⟩], .minus), some ([⟨2, .zero⟩], .minus)) := by decide
theorem test_enc_rzb : (sampled .rzb 5 [true] 0 1 .minus, sampled .rzb 5 [true] 0 2 .minus) =
    (some ([⟨1, .pos⟩], .minus), some ([⟨2, .zero⟩], .minus)) := by decide

/-- Steps 11, 12 and 15 of the trace of 2.9. -/
theorem test_enc_ami : (sampled .ami 2 [false, false, false, false, false, true, false, true] 5 0 .minus,
      sampled .ami 2 [false, false, false, false, false, true, false, true] 5 1 .plus,
      sampled .ami 2 [false, false, false, false, false, true, false, true] 7 0 .plus) =
    (some ([⟨10, .pos⟩], .plus), some ([⟨11, .pos⟩], .plus), some ([⟨14, .neg⟩], .minus)) := by decide

/-- Steps 1, 2, 4 and 5 of the second trace of 2.9. -/
theorem test_enc_man : (sampled .man 3 [true, false] 0 0 .minus, sampled .man 3 [true, false] 0 1 .minus,
      sampled .man 3 [true, false] 1 0 .minus, sampled .man 3 [true, false] 1 1 .minus) =
    (some ([⟨0, .neg⟩], .minus), some ([⟨1, .pos⟩], .minus), some ([⟨3, .pos⟩], .minus),
      some ([⟨4, .neg⟩], .minus)) := by decide
theorem test_enc_mark : (sampled .mark 3 [true, false] 0 2 .minus, sampled .mark 3 [true, false] 1 0 .minus) =
    (some ([⟨2, .pos⟩], .minus), some ([⟨3, .zero⟩], .minus)) := by decide
theorem test_enc_space : (sampled .space 3 [true, false] 0 2 .minus, sampled .space 3 [true, false] 1 0 .minus) =
    (some ([⟨2, .zero⟩], .minus), some ([⟨3, .pos⟩], .minus)) := by decide
theorem test_enc_clk : (sampled .clk 5 [false] 0 1 .minus, sampled .clk 5 [false] 0 2 .minus) =
    (some ([⟨1, .pos⟩], .minus), some ([⟨2, .zero⟩], .minus)) := by decide

/-- The last sample of a block moves `N` on and `P` back to 0 (R182). -/
theorem test_enc_block_end : after (step (inEnc .clk 5 [false, true] 0 4 .minus []))
    (fun t => (t.n, t.p, t.k)) = some (1, 0, 5) := by decide

theorem test_schemes : after (step (offering 2 Request.schemes [])) (fun t => (t.regOut.map RegEntry.id, t.err, t.st)) =
    some ([0, 1, 2, 3, 4, 5, 6, 7, 8], false, .idle) := by decide

/-- The error record is cleared by the next accept (X5). -/
theorem test_err_cleared : after (step { offering 2 (Request.extract [0x05]) [] with err := true, errMode := 1 })
    (fun t => (t.err, t.st, t.nbytes)) = some (false, .busy, 1) := by decide

/-- An accept leaves no earlier result of any unit (R20, R32). -/
theorem test_accept_drops_older_results : after (step { offering 2 Request.schemes [] with
      bytesOut := [5], bitsOut := [true], waveOut := [⟨0, .pos⟩] }) (fun t => (t.bytesOut, t.bitsOut, t.waveOut)) =
    some ([], [], []) := by decide

/-- A completion step gives the operand back and leaves the result (R24, R184). -/
theorem test_complete_returns_operand : after (step (inEnc .nrzu 1 [true] 1 0 .minus [⟨0, .pos⟩]))
    (fun t => (t.bitsIn, t.waveOut, t.st)) = some ([], [⟨0, .pos⟩], .idle) := by decide

/-- A reset in the middle of an AMI request leaves no response, to that request or to any command (R244). -/
theorem test_reset_leaves_no_response :
    after (step { inEnc .ami 2 [true] 0 1 .plus [⟨0, .pos⟩] with host := [.reset] })
      (fun t => Instr.all.map fun i => responseOf i t) = some (Instr.all.map fun _ => none) := by decide

/-- A completed empty `EXTRACT` has the response of no bits, and no other command has one (R131, R188). -/
theorem test_complete_gives_one_response : after (step (inExtract [] 0 []))
    (fun t => (responseOf .extract t, responseOf .encAmi t, responseOf .parseInt t)) =
    some (some (.bits []), none, none) := by decide

/-- The settings of `INT_EXT` that R106 names: a `+` sign, surrounding white space, digit separators. -/
theorem test_int_ext_relaxed :
    ([['+', '5'], [' ', '5', ' '], ['1', '_', '0', '0', '0'], ['1', '_', '_', '0'], ['+', '-', '5'], [' ']] : List Text).map
      (intExt? { cfgOf 2 with intExt := .relaxed ⟨true, [' '], ['_']⟩ }) =
    [some 5, some 5, some 1000, none, none, none] := by decide

/-! ### Witnesses: requests that are accepted -/

theorem witness_accepts_parse (m : Mode) (t : Text) (rest : List HostMove) :
    Accepts (.parse m) (Request.parse m t) rest (offering 2 (Request.parse m t) rest) :=
  ⟨(by decide : (1 : Nat) ≤ 2), rfl, rfl, by cases m <;> rfl⟩

theorem witness_accepts_extract (b : List Byte) (rest : List HostMove) :
    Accepts .extract (Request.extract b) rest (offering 2 (Request.extract b) rest) := ⟨(by decide : (1 : Nat) ≤ 2), rfl, rfl, rfl⟩

theorem witness_accepts_enc (c : Scheme) (b : List Bit) (rest : List HostMove) :
    Accepts (.enc c) (Request.enc c b) rest (offering 2 (Request.enc c b) rest) :=
  ⟨(by decide : (1 : Nat) ≤ 2), rfl, rfl, by cases c <;> rfl⟩

theorem witness_accepts_schemes (rest : List HostMove) :
    Accepts .schemes Request.schemes rest (offering 2 Request.schemes rest) := ⟨(by decide : (1 : Nat) ≤ 2), rfl, rfl, rfl⟩

/-- Accepted with the capacity exactly reached (the bound of R227). -/
theorem witness_accepts_at_capacity :
    Accepts (.enc .ami) (Request.enc .ami [true, false]) []
      { offering 2 (Request.enc .ami [true, false]) [] with cfg := { cfgOf 2 with maxBits := some 2 } } :=
  ⟨by decide, rfl, rfl, by decide⟩

theorem witness_whole_request : (Request.extract [0x1A]).word = 0x10 ∧
    (∀ c b, (Request.enc c b).word = encode (.enc c)) ∧ ResetFree [.wait, .request Request.schemes] ∧ ResetFree [] :=
  ⟨rfl, fun _ _ => rfl, by decide, by decide⟩

/-- `NothingCarriesOver`: one request offered to two blocks that hold different things. -/
theorem witness_two_histories :
    ∃ s1 s2 : State, s1 ≠ s2 ∧ Accepts (.enc .ami) (Request.enc .ami [true]) [] s1 ∧
      Accepts (.enc .ami) (Request.enc .ami [true]) [] s2 ∧ s1.cfg = s2.cfg :=
  ⟨offering 2 (Request.enc .ami [true]) [],
    { offering 2 (Request.enc .ami [true]) [] with pol := .plus, n := 3, err := true, waveOut := [⟨0, .neg⟩] },
    by decide, witness_accepts_enc _ _ _, ⟨by decide, rfl, rfl, rfl⟩, rfl⟩

/-! ### Witnesses: the cases of a step -/

/-- `ReservedWordsRefused`: an offered word of each clause of R89, at the lowest value of the clause. -/
theorem witness_reserved_offered :
    ([(0x40, .opClass), (0x03, .parseMode), (0x11, .extractSel), (0x29, .encScheme), (0x31, .schemesSel)] :
      List (Byte × Reserved)).all (fun e =>
        let s := offering 1 { word := e.1, text := [], bytes := [], bits := [] } []
        decide (1 ≤ s.cfg.spb ∧ s.st = .idle ∧ decode e.1 = .reserved e.2)) = true := by decide

theorem witness_idle_nothing : 1 ≤ State.reset.cfg.spb ∧ State.reset.st = .idle ∧ State.reset.host = [] := by decide

theorem witness_idle_wait : ∃ s : State, 1 ≤ s.cfg.spb ∧ s.st = .idle ∧ s.host = [.wait] :=
  ⟨{ State.reset with host := [.wait] }, by decide, rfl, rfl⟩

/-- A reset asserted in the middle of a request. -/
theorem witness_reset_while_busy : ∃ s : State, 1 ≤ s.cfg.spb ∧ s.st = .busy ∧ s.host = [.reset, .wait] :=
  ⟨{ inEnc .ami 2 [true] 0 1 .plus [] with host := [.reset, .wait] }, by decide, rfl, rfl⟩

/-- `ResponseStandsOnlyAfterItsEnd`: a busy block, a command that ends in `IDLE`, one accepted by an idle block that still
holds the response of an earlier one. -/
theorem witness_response_stands :
    (∃ s : State, s.st = .busy) ∧ (∃ s t : State, exec .extract s = .next t ∧ t.st = .idle) ∧
    ∃ s t : State, s.st = .idle ∧ responseOf .encAmi s = some (.wave [⟨0, .pos⟩]) ∧ exec .extract s = .next t ∧
      t.st = .busy :=
  ⟨⟨inExtract [0x80] 0 [], rfl⟩, ⟨inExtract [] 0 [], _, rfl, rfl⟩,
    { offering 2 (Request.extract [0x80]) [] with waveOut := [⟨0, .pos⟩], ended := some .encAmi }, _, rfl, rfl, rfl, rfl⟩

/-- `StepRunsDecodedCommand`, the two busy clauses: the host holds a request out, makes no move, or waits. -/
theorem witness_step_busy :
    (∃ s : State, 1 ≤ s.cfg.spb ∧ s.st = .busy ∧ s.host = [.request Request.schemes] ∧ decode s.cmd = .instr .encAmi ∧
      ∀ rest, s.host ≠ .reset :: rest ∧ s.host ≠ .wait :: rest) ∧
    (∃ s : State, 1 ≤ s.cfg.spb ∧ s.st = .busy ∧ s.host = [.wait] ∧ decode s.cmd = .instr .extract) :=
  ⟨⟨{ inEnc .ami 2 [true] 0 1 .plus [] with host := [.request Request.schemes] }, by decide, rfl, rfl, rfl,
      fun _ => ⟨nofun, nofun⟩⟩,
    ⟨{ inExtract [0x80] 0 [] with host := [.wait] }, by decide, rfl, rfl, rfl⟩⟩

theorem witness_construct : (cfgOf 0).spb = 0 ∧ 1 ≤ (cfgOf 1).spb := by decide

/-- `OverCapacityRefused`: one over the bound, for each kind of operand. -/
theorem witness_over_capacity :
    (∃ (s : State) (r : Request), s.host = [.request r] ∧ decode r.word = .instr .parseInt ∧
      s.cfg.maxText = some 1 ∧ 1 < r.text.length ∧ s.st = .idle ∧ 1 ≤ s.cfg.spb) ∧
    (∃ (s : State) (r : Request), s.host = [.request r] ∧ decode r.word = .instr .extract ∧
      s.cfg.maxBits = some 7 ∧ 7 < 8 * r.bytes.length ∧ s.st = .idle ∧ 1 ≤ s.cfg.spb) ∧
    ∃ (s : State) (r : Request), s.host = [.request r] ∧ decode r.word = .instr .encMan ∧
      s.cfg.maxBits = some 1 ∧ 1 < r.bits.length ∧ s.st = .idle ∧ 1 ≤ s.cfg.spb :=
  ⟨⟨{ offering 2 (Request.parse .integer ['1', '0']) [] with cfg := { cfgOf 2 with maxText := some 1 } }, _, rfl, rfl,
      rfl, by decide, rfl, by decide⟩,
    ⟨{ offering 2 (Request.extract [0x05]) [] with cfg := { cfgOf 2 with maxBits := some 7 } }, _, rfl, rfl, rfl,
      by decide, rfl, by decide⟩,
    ⟨{ offering 2 (Request.enc .man [true, false]) [] with cfg := { cfgOf 2 with maxBits := some 1 } }, _, rfl, rfl,
      rfl, by decide, rfl, by decide⟩⟩

/-! ### Witnesses: texts -/

/-- `ParseIntAnswers`: a literal of value 0, a positive one, a negative one. -/
theorem witness_literals : GInt ['0'] 0 ∧ GInt ['2', '5', '6'] 256 ∧ GInt ['-', '5'] (-5) ∧ GInt ['-', '0'] 0 := by
  refine ⟨.unsigned .zero, .unsigned (.decimal (by decide) ((digitsVal_eq_some _ _ _).1 ?_)),
    .signed (v := 5) (.decimal (by decide) ((digitsVal_eq_some _ _ _).1 ?_)), .signed (v := 0) .zero⟩ <;> decide

theorem not_gint_plus (u : Int) : ¬ GInt ['+', '5'] u := by
  intro h
  cases h with
  | unsigned h => exact absurd ((magnitude_eq_some _ _).2 h) (by rw [show magnitude? ['+', '5'] = none by decide]; nofun)

/-- Texts outside the grammar, as `INT_EXT` says: a value that is not negative, a negative one, none. -/
theorem witness_int_ext :
    (∀ u, ¬ GInt ['+', '5'] u) ∧
    intExt? { cfgOf 2 with intExt := .listed [(['+', '5'], 5)] } ['+', '5'] = some 5 ∧
    intExt? { cfgOf 2 with intExt := .listed [(['+', '5'], -5)] } ['+', '5'] = some (-5) ∧
    intExt? (cfgOf 2) ['+', '5'] = none :=
  ⟨not_gint_plus, by decide, by decide, by decide⟩

/-- `ParseHexAnswers`: none, an odd and an even count of digits kept. -/
theorem witness_kept_hex : KeptDigits 16 hexChars ['z', 'z'] [] ∧ KeptDigits 16 hexChars ['g', '1', 'h'] [1] ∧
    KeptDigits 16 hexChars ['F', '-', 'a'] [15, 10] := by
  refine ⟨.nil, ?_, ?_⟩
  · exact .cons ((digitVal_eq_some _ _ _).1 (by decide)) .nil
  · exact .cons ((digitVal_eq_some _ _ _).1 (by decide)) (.cons ((digitVal_eq_some _ _ _).1 (by decide)) .nil)

/-- `ParseBinAnswers`: none, and two digits kept. -/
theorem witness_kept_bin : KeptDigits 2 binChars ['2'] [] ∧ KeptDigits 2 binChars ['1', '0', '2'] [1, 0] := by
  refine ⟨.nil, ?_⟩
  exact .cons ((digitVal_eq_some _ _ _).1 (by decide)) (.cons ((digitVal_eq_some _ _ _).1 (by decide)) .nil)

/-- `ParsedBytesNeverEmpty`, `InvalidInputEntry`, `RenderAnswers`: each mode accepts a text and rejects one. -/
theorem witness_parse_text :
    parseText (cfgOf 2) .integer ['1', '0'] = some [0x0A] ∧ parseText (cfgOf 2) .hexBytes ['1', '0'] = some [0x10] ∧
    parseText (cfgOf 2) .binary ['1', '0'] = some [0x02] ∧
    ∀ m, parseText (cfgOf 2) m ['z'] = none := by
  refine ⟨by decide, by decide, by decide, fun m => ?_⟩
  cases m <;> decide

/-- `ParseFrame`, `SchemesFrame`, `ExtractFrame`, `EncFrame`: each goes on, with and without an error, from `IDLE`. -/
theorem witness_frames_idle :
    (after (exec .parseInt (offering 2 (Request.parse .integer ['5']) [])) State.err,
      after (exec .parseHex (offering 2 (Request.parse .hexBytes ['z']) [])) State.err,
      after (exec .parseBin (offering 2 (Request.parse .binary ['1']) [])) State.err,
      after (exec .extract (offering 2 (Request.extract []) [])) State.err,
      after (exec .encAmi (offering 2 (Request.enc .ami []) [])) State.err,
      after (exec .schemes (offering 2 Request.schemes [])) State.err) =
    (some false, some true, some false, some false, some false, some false) := by decide

/-! ### Witnesses: running requests -/

/-- `ExtractSteps`, `ExtractFrame`: at the first bit, at the last, and at the end. -/
theorem witness_extract_busy :
    (∃ s : State, s.st = .busy ∧ s.q = 0 ∧ s.q < 8 * s.nbytes ∧ s.bytesIn[s.q / 8]? = some 0x1A) ∧
    (∃ s : State, s.st = .busy ∧ s.q = 7 ∧ s.q < 8 * s.nbytes ∧ s.bytesIn[s.q / 8]? = some 0x1A) ∧
    ∃ s : State, s.st = .busy ∧ s.q = 8 * s.nbytes ∧ s.nbytes = 1 :=
  ⟨⟨inExtract [0x1A] 0 [], rfl, rfl, by decide, rfl⟩, ⟨inExtract [0x1A] 7 [], rfl, rfl, by decide, rfl⟩,
    ⟨inExtract [0x1A] 8 [], rfl, rfl, rfl⟩⟩

/-- The sample statements: a 0-bit and a 1-bit, at phase 0 and at the last phase. -/
theorem witness_at_sample (c : Scheme) :
    AtSample false (inEnc c 2 [false, true] 0 0 .minus []) ∧ AtSample false (inEnc c 2 [false, true] 0 1 .minus []) ∧
    AtSample true (inEnc c 2 [false, true] 1 0 .minus []) ∧ AtSample true (inEnc c 2 [false, true] 1 1 .plus []) := by
  have spb : 1 ≤ 2 := by decide
  have n0 : 0 < 2 := by decide
  have n1 : 1 < 2 := by decide
  exact ⟨⟨spb, rfl, n0, rfl⟩, ⟨spb, rfl, n0, rfl⟩, ⟨spb, rfl, n1, rfl⟩, ⟨spb, rfl, n1, rfl⟩⟩

/-- `EncCompletion`: all samples written; and an empty operand. -/
theorem witness_enc_end (c : Scheme) : (inEnc c 2 [true] 1 0 .minus []).st = .busy ∧
    (inEnc c 2 [true] 1 0 .minus []).n = (inEnc c 2 [true] 1 0 .minus []).nbits ∧ (Request.enc c []).bits = [] :=
  ⟨rfl, rfl, rfl⟩

/-- `EncCompletion`: a running request with all its samples written. -/
theorem witness_enc_running_end : ∃ s : State, EncRunning .nrzb s ∧ s.n = s.nbits ∧ s.nbits = 1 :=
  ⟨inEnc .nrzb 1 [false] 1 0 .minus [⟨0, .neg⟩], ⟨rfl, by decide, by decide, rfl, fun _ => rfl, rfl, rfl, rfl⟩, rfl, rfl⟩

/-- `PolarityFlipsOnlyInAmi`: a step that flips. -/
theorem witness_polarity_flips : ∃ s t : State, s.st = .busy ∧ exec .encAmi s = .next t ∧ t.pol ≠ s.pol :=
  ⟨inEnc .ami 2 [true] 0 0 .minus [], _, rfl, rfl, by decide⟩

/-- The functional statements: a bit and a phase; an odd and an even number of 1-bits; `SPB` 1 and 2. -/
theorem witness_functional : ([false, true] : List Bit)[1]? = some true ∧ 1 < 2 ∧ 2 ≤ 2 ∧ 1 ≤ 1 ∧
    ([true, false] : List Bit).count true % 2 = 1 ∧ ([true, true] : List Bit).count true % 2 = 0 ∧
    Scheme.man ≠ .ami ∧ Level.neg ∈ encodeLevels .man 2 [true] := by decide

/-- The hypotheses of `EncAllGivesNineWaveforms` and `RenderAnswers`. -/
theorem witness_composites : 1 ≤ State.reset.cfg.spb ∧ State.reset.st = .idle ∧ State.reset.cfg.maxText = none ∧
    State.reset.cfg.maxBits = none ∧ withinBound State.reset.cfg.maxBits 8 = true := by decide

/-- `RenderAnswers` at the bounds of an instance, and `CompositesRefusedOverCapacity` one over each. -/
theorem witness_composites_bounded :
    (withinBound (some 1) ['5'].length, withinBound (some 8) (8 * [5].length), withinBound (some 0) ['5'].length,
      withinBound (some 7) (8 * [5].length), withinBound (some 1) [true, false].length) =
    (true, true, false, false, false) ∧
    parseText { cfgOf 2 with maxText := some 1, maxBits := some 7 } .integer ['5'] = some [5] ∧
    parseText { cfgOf 2 with maxText := some 1, maxBits := some 8 } .integer ['z'] = none := by decide

/-- `IntExtOutsideTheGrammar`: a magnitude, and spaces around it. -/
theorem witness_magnitude : Magnitude ['0'] 0 ∧ (∀ c ∈ [' ', ' '], c = ' ') ∧ ∀ c ∈ ([] : Text), c = ' ' :=
  ⟨.zero, by simp, by simp⟩

/-- The separator clauses of `IntExtOutsideTheGrammar`: two digits that a separator may part; a text with a separator that
no digit stands before, and one that no digit stands after. -/
theorem witness_separators :
    (IsDigit 16 '1' 1 ∧ IsDigit 16 '0' 0 ∧ Magnitude ([] ++ ['1', '0'] ++ []) 10) ∧
    (∀ d u, ([] : Text).getLast? = some d → ¬ IsDigit 16 d u) ∧
    (∀ d u, (['_', '0'] : Text).head? = some d → ¬ IsDigit 16 d u) := by
  refine ⟨⟨(hexVal_eq_some _ _).1 (by decide), (hexVal_eq_some _ _).1 (by decide),
    .decimal (by decide) ((digitsVal_eq_some _ _ _).1 (by decide))⟩, by simp, fun d u h => ?_⟩
  cases h
  rw [← hexVal_eq_some, show hexVal? '_' = none by decide]
  nofun

/-- `OperandReturnedAndOtherResultsDropped`: a step that ends a request, and an accept from an idle block. -/
theorem witness_request_ends :
    (∃ t, exec .encNrzu (inEnc .nrzu 1 [true] 1 0 .minus [⟨0, .pos⟩]) = .next t ∧ t.st = .idle) ∧
    ∃ t, (offering 2 Request.schemes []).st = .idle ∧ exec .schemes (offering 2 Request.schemes []) = .next t ∧
      t.st = .idle :=
  ⟨⟨_, rfl, rfl⟩, ⟨_, rfl, rfl, rfl⟩⟩

/-! ### Witnesses: states that meet the invariant -/

/-- An idle block that is offered a request. -/
theorem witness_inv_idle (r : Request) (rest : List HostMove) : StateInv (offering 2 r rest) := by
  have spb : 1 ≤ 2 := by decide
  have p : 0 < 2 := by decide
  have errMode : 0 ≤ 2 := by decide
  have cmd : reservedWord 0 = false := by decide
  exact ⟨⟨spb, cmd, rfl, rfl, Nat.le_refl 0, Nat.le_refl 0, p, Nat.le_refl 0, errMode⟩, nofun, nofun, nofun,
    ⟨.parseInt, rfl, ⟨fun _ => rfl, fun _ => rfl, fun _ => rfl⟩,
      ⟨fun _ => rfl, fun _ => rfl, fun _ => rfl, fun _ => rfl⟩⟩, fun _ => ⟨rfl, rfl, rfl⟩⟩

/-- A block that has just raised `InvalidInput`. -/
theorem witness_inv_error :
    StateInv { State.reset with err := true, errMode := 2, cmd := 0x02, ended := some .parseBin } :=
  ⟨⟨by decide, rfl, rfl, rfl, by decide, by decide, by decide, by decide, by decide⟩, nofun,
    fun _ => ⟨rfl, rfl, .binary, rfl, rfl⟩, fun i h => by cases h; exact ⟨rfl, rfl⟩,
    ⟨.parseBin, rfl, ⟨fun _ => rfl, fun _ => rfl, fun _ => rfl⟩,
      ⟨fun _ => rfl, fun _ => rfl, fun _ => rfl, fun _ => rfl⟩⟩, fun _ => ⟨rfl, rfl, rfl⟩⟩

/-- A block in the middle of a 1-bit of an AMI request, two steps before it ends. -/
theorem witness_inv_enc : ∃ s : State, StateInv s ∧ s.st = .busy ∧ ResetFree s.host ∧ s.stepsLeft = 1 :=
  ⟨inEnc .ami 2 [true] 0 1 .plus [⟨0, .pos⟩],
    ⟨⟨by decide, by decide, rfl, rfl, by decide, by decide, by decide, by decide, by decide⟩,
      fun _ => .inr ⟨.ami, rfl, ⟨rfl, by decide, by decide, rfl, nofun, rfl, rfl, rfl⟩⟩, nofun, nofun,
      ⟨.encAmi, rfl, ⟨fun _ => rfl, fun _ => rfl, nofun⟩, ⟨fun _ => rfl, fun _ => rfl, nofun, fun _ => rfl⟩⟩, nofun⟩,
    rfl, by decide, by decide⟩

/-- A block in the middle of an `EXTRACT` request. -/
theorem witness_inv_extract : ∃ s : State, StateInv s ∧ s.st = .busy ∧ ResetFree s.host ∧ s.stepsLeft = 7 :=
  ⟨inExtract [0x80] 1 [true],
    ⟨⟨by decide, by decide, rfl, rfl, by decide, by decide, by decide, by decide, by decide⟩,
      fun _ => .inl ⟨rfl, ⟨rfl, by decide, rfl⟩⟩, nofun, nofun,
      ⟨.extract, rfl, ⟨fun _ => rfl, nofun, fun _ => rfl⟩, ⟨fun _ => rfl, nofun, fun _ => rfl, fun _ => rfl⟩⟩, nofun⟩,
    rfl, by decide, by decide⟩

/-- `StepKeepsTheInvariant`: a state that meets the invariant and takes a step. -/
theorem witness_inv_steps : ∃ s t : State, StateInv s ∧ step s = .next t ∧ t.st = .busy :=
  ⟨offering 2 (Request.enc .ami [true]) [], _, witness_inv_idle _ _, rfl, rfl⟩

/-- `RefusalsOnlyAtAccept`: a state that meets the invariant and whose step is refused. -/
theorem witness_inv_refused : ∃ (s : State) (ρ : Refusal), StateInv s ∧ step s = .refused ρ :=
  ⟨offering 2 { word := 0x29, text := [], bytes := [], bits := [] } [], _, witness_inv_idle _ _, rfl⟩

end Sys2Proof.Tests
end

section
/-! SUPPORT. What a whole request answers: a function of the block's parameters, the command and the operand alone. -/

namespace Sys2Proof.Machine

/-! ### The parameters of the block -/

/-- No command writes a parameter of the block (10_state.md R21). -/
theorem exec_keeps_cfg {i : Instr} {s t : State} (h : exec i s = .next t) : t.cfg = s.cfg := by
  rcases Instr.class_cases i with ⟨m, rfl⟩ | rfl | ⟨c, rfl⟩ | rfl
  · rw [exec_parse] at h
    obtain ⟨-, r, -, -, ⟨-, rfl⟩ | ⟨b, -, rfl⟩⟩ := parse_effect.1 h <;> simp
  · obtain ⟨-, r, -, -, rfl⟩ | ⟨-, -, v, -, rfl⟩ | ⟨-, -, rfl⟩ := extract_effect h <;> simp
  · rw [exec_enc] at h
    obtain ⟨-, r, -, -, rfl⟩ | ⟨-, -, x, -, rfl⟩ | ⟨-, -, rfl⟩ := enc_effect h <;> simp
  · obtain ⟨-, r, -, -, rfl⟩ := schemes_effect.1 h
    simp

/-- No step, a reset included, writes a parameter of the block (10_state.md R21). -/
theorem step_keeps_cfg {s t : State} (h : step s = .next t) : t.cfg = s.cfg := by
  obtain ⟨-, ⟨-, rfl⟩ | ⟨-, -, rfl⟩ | ⟨-, w, i, -, -, hx⟩⟩ := step_effect h
  · simp
  · simp
  · simpa using exec_keeps_cfg hx

/-- Settles O9: construction decides on `SPB` alone, and no step writes the parameters. -/
theorem spbFixedAtConstruction : Obligations.SpbFixedAtConstruction := by
  unfold Obligations.SpbFixedAtConstruction
  refine ⟨fun cfg host h => ?_, fun cfg host h => ?_, rfl, fun s t h => step_keeps_cfg h⟩
  · simp [construct, h]
  · have hne : cfg.spb ≠ 0 := Nat.one_le_iff_ne_zero.1 h
    exact ⟨State.resetWith cfg host, by simp [construct, hne], rfl, rfl⟩

/-! ### The end of a request -/

theorem decode_encode (i : Instr) : decode (encode i) = .instr i := by cases i <;> rfl

@[simp] theorem resultOf_parse (m : Mode) (s : State) : resultOf (.parse m) s = parseResponse s := by cases m <;> rfl

@[simp] theorem resultOf_extract (s : State) : resultOf .extract s = some (.bits s.bitsOut) := rfl

@[simp] theorem resultOf_enc (c : Scheme) (s : State) : resultOf (.enc c) s = some (.wave s.waveOut) := by cases c <;> rfl

@[simp] theorem resultOf_schemes (s : State) : resultOf .schemes s = some (.registry s.regOut) := rfl

/-- From its completion step on, a command's response is the result it has written (43_sampler_step_machine.md R188). -/
@[simp] theorem responseOf_complete (i : Instr) (s : State) : responseOf i (s.complete i) = resultOf i (s.complete i) := by
  simp [responseOf]

theorem resetFree_of_accepts {i r rest s} (h : Accepts i r rest s) (hfree : ResetFree rest) :
    ResetFree (s.accept i).host := by
  simpa [h.host_tail] using hfree

/-! ### A counted run -/

/-- If every step moves a counter from `k` to `k + 1` below `N`, then `d` steps bring it from `k` to `N = k + d`. -/
theorem runSteps_counted {P : Nat → State → Prop} {N : Nat}
    (hstep : ∀ k s, k < N → P k s → ∃ t, step s = .next t ∧ P (k + 1) t) {d k : Nat} {s : State} (hd : k + d = N)
    (h : P k s) : ∃ t, runSteps d s = .next t ∧ P N t := by
  induction d generalizing k s with
  | zero => exact ⟨s, rfl, hd ▸ h⟩
  | succ d ih =>
    obtain ⟨u, hs, hu⟩ := hstep k s (by omega) h
    obtain ⟨t, ht, hN⟩ := ih (by omega) hu
    exact ⟨t, by rw [runSteps_succ hs, ht], hN⟩

/-- A block with parameters `cfg` that is busy with command `i`, with no error and no reset to come. -/
structure WorksOn (i : Instr) (cfg : Config) (s : State) : Prop where
  cfg_eq    : s.cfg = cfg
  spb       : 1 ≤ cfg.spb
  resetFree : ResetFree s.host
  busy      : s.st = .busy
  cmd       : s.cmd = encode i
  err       : s.err = false

theorem WorksOn.passWait {i cfg s} (h : WorksOn i cfg s) : WorksOn i cfg s.passWait :=
  ⟨by simpa using h.cfg_eq, h.spb, resetFree_passWait h.resetFree, by simpa using h.busy, by simpa using h.cmd,
    by simpa using h.err⟩

/-- A busy block's step is its command's next step, after a wait of the host is used up. -/
theorem WorksOn.step_eq {i cfg s} (h : WorksOn i cfg s) : step s = exec i s.passWait :=
  step_of_fetch (h.cfg_eq ▸ h.spb) (not_resetAsserted_of_resetFree h.resetFree) (fetch_of_busy h.busy)
    (h.cmd ▸ decode_encode i)

/-! ### The run of `EXTRACT` -/

theorem extractBits_length (b : List Byte) : (extractBits b).length = 8 * b.length := by
  induction b with
  | nil => rfl
  | cons v b ih =>
    have : extractBits (v :: b) = (List.range 8).map (bitOfByte v) ++ extractBits b := rfl
    simp [this, ih]; omega

/-- `EXTRACT` of `b` before bit step `q`: the first `q` bits of `b` are written. -/
structure ExtractAt (cfg : Config) (b : List Byte) (q : Nat) (s : State) : Prop extends WorksOn .extract cfg s where
  bytesIn : s.bytesIn = b
  nbytes  : s.nbytes = b.length
  q_eq    : s.q = q
  bitsOut : s.bitsOut = (extractBits b).take q

theorem ExtractAt.passWait {cfg b q s} (h : ExtractAt cfg b q s) : ExtractAt cfg b q s.passWait :=
  ⟨h.toWorksOn.passWait, by simpa using h.bytesIn, by simpa using h.nbytes, by simpa using h.q_eq,
    by simpa using h.bitsOut⟩

theorem extractAt_accept {r rest s} (h : Accepts .extract r rest s) (hfree : ResetFree rest) :
    ExtractAt s.cfg r.bytes 0 ((s.accept .extract).acceptExtract r) :=
  ⟨⟨rfl, h.spb, resetFree_of_accepts h hfree, rfl, rfl, rfl⟩, rfl, rfl, rfl, rfl⟩

/-- A bit step writes the next bit of the operand. -/
theorem ExtractAt.bit_step {cfg b q s} (hq : q < 8 * b.length) (h : ExtractAt cfg b q s) :
    ∃ t, step s = .next t ∧ ExtractAt cfg b (q + 1) t := by
  have hw := h.passWait
  have hbyte : b[q / 8]? = some b[q / 8] := List.getElem?_eq_getElem (by omega)
  have hbit : (extractBits b)[q]? = some (bitOfByte b[q / 8] (q % 8)) := by
    have := extractBits_getElem? b (q / 8) (q % 8) (by omega)
    rwa [Nat.div_add_mod, hbyte] at this
  have hq' : s.passWait.q < 8 * s.passWait.nbytes := by rw [hw.q_eq, hw.nbytes]; exact hq
  have hread : s.passWait.bytesIn[s.passWait.q / 8]? = some b[q / 8] := by rw [hw.bytesIn, hw.q_eq, hbyte]
  refine ⟨s.passWait.emitBit (bitOfByte b[q / 8] (q % 8)), ?_, ?_⟩
  · rw [h.step_eq, exec, extract_bit_of hw.busy hq' hread, hw.q_eq]
  · exact ⟨⟨hw.cfg_eq, hw.spb, hw.resetFree, hw.busy, hw.cmd, hw.err⟩, hw.bytesIn, hw.nbytes, by simpa using hw.q_eq,
      by rw [State.emitBit_bitsOut, hw.bitsOut, take_succ_of_getElem? hbit]⟩

/-- The completion step gives the bits of the whole operand. -/
theorem ExtractAt.complete {cfg b s} (h : ExtractAt cfg b (8 * b.length) s) :
    ∃ t, step s = .next t ∧ responseOf .extract t = some (.bits (extractBits b)) ∧ t.err = false := by
  have hw := h.passWait
  refine ⟨s.passWait.complete .extract, ?_, ?_, by simpa using h.err⟩
  · rw [h.step_eq]
    exact extract_complete_of hw.busy (by rw [hw.q_eq, hw.nbytes])
  · simp [h.bitsOut, List.take_of_length_le, extractBits_length]

/-! ### The run of an `ENC` -/

/-- Sample `k` of `bits` in scheme `c` (43_sampler_step_machine.md R182): phase `k mod SPB` of bit `floor(k / SPB)`, at
AMI's polarity after that bit. -/
def sampleAt (c : Scheme) (spb : Nat) (bits : List Bit) (k : Nat) : Sample where
  time := k
  level := level c spb (bits.getD (k / spb) false) (k % spb)
    (if c = .ami then polAfter (bits.take (k / spb + 1)) else .minus)

/-- An `ENC` of `bits` before sample step `k`: the first `k` samples are written. -/
structure EncAt (c : Scheme) (cfg : Config) (bits : List Bit) (k : Nat) (s : State) : Prop
    extends WorksOn (.enc c) cfg s where
  running : EncRunning c s
  bitsIn  : s.bitsIn = bits
  k_eq    : s.k = k
  waveOut : s.waveOut = (List.range k).map (sampleAt c cfg.spb bits)

theorem EncAt.passWait {c cfg bits k s} (h : EncAt c cfg bits k s) : EncAt c cfg bits k s.passWait :=
  ⟨h.toWorksOn.passWait, encRunning_passWait h.running, by simpa using h.bitsIn, by simpa using h.k_eq,
    by simpa using h.waveOut⟩

theorem encAt_accept {c r rest s} (h : Accepts (.enc c) r rest s) (hfree : ResetFree rest) :
    EncAt c s.cfg r.bits 0 ((s.accept (.enc c)).acceptEnc r) :=
  ⟨⟨rfl, h.spb, resetFree_of_accepts h hfree, rfl, rfl, rfl⟩, encRunning_accept h.spb, rfl, rfl, rfl⟩

theorem EncAt.nbits {c cfg bits k s} (h : EncAt c cfg bits k s) : s.nbits = bits.length := by
  rw [h.running.nbits, h.bitsIn]

/-- The sample index gives the bit and the phase. -/
theorem EncAt.div_mod {c cfg bits k s} (h : EncAt c cfg bits k s) : k / cfg.spb = s.n ∧ k % cfg.spb = s.p := by
  have hp : s.p < cfg.spb := h.cfg_eq ▸ h.running.p
  have hk : k = s.p + cfg.spb * s.n := by rw [← h.k_eq, h.running.k, h.cfg_eq, Nat.mul_comm, Nat.add_comm]
  rw [hk, Nat.add_mul_div_left _ _ h.spb, Nat.div_eq_of_lt hp, Nat.add_mul_mod_self_left, Nat.mod_eq_of_lt hp]
  exact ⟨Nat.zero_add _, rfl⟩

/-- The sample that a running request writes next is sample `k` of its operand. -/
theorem EncAt.sample_eq {c cfg bits k s x} (h : EncAt c cfg bits k s) (hx : s.bitsIn[s.n]? = some x) :
    ({ time := s.k, level := level c s.cfg.spb x s.p (polFor c x s.p s.pol) } : Sample) = sampleAt c cfg.spb bits k := by
  obtain ⟨hn, hp⟩ := h.div_mod
  have hbit : bits.getD s.n false = x := by rw [List.getD_eq_getElem?_getD, ← h.bitsIn, hx, Option.getD_some]
  rw [sampleAt, hn, hp, hbit, polFor_of_encRunning h.running hx, h.cfg_eq, h.bitsIn, h.k_eq]

/-- A sample step writes the next sample. -/
theorem EncAt.sample_step {c cfg bits k s} (hk : k < bits.length * cfg.spb) (h : EncAt c cfg bits k s) :
    ∃ t, step s = .next t ∧ EncAt c cfg bits (k + 1) t := by
  have hw := h.passWait
  have hn : s.passWait.n < s.passWait.nbits :=
    (encRunning_k_lt_iff hw.running).1 (by rw [hw.k_eq, hw.nbits, hw.cfg_eq]; exact hk)
  obtain ⟨x, hat, hrun⟩ := encRunning_sample (hw.cfg_eq ▸ hw.spb) hw.busy hw.running hn
  refine ⟨_, by rw [h.step_eq, exec_enc, enc_sample_of hat], ?_⟩
  refine ⟨⟨hw.cfg_eq, hw.spb, hw.resetFree, hw.busy, hw.cmd, hw.err⟩, hrun, hw.bitsIn, by simpa using hw.k_eq, ?_⟩
  rw [State.withSample_waveOut, hw.sample_eq hat.bit, hw.waveOut, List.range_succ, List.map_append]
  rfl

/-- The completion step gives the whole Waveform. -/
theorem EncAt.complete {c cfg bits s} (h : EncAt c cfg bits (bits.length * cfg.spb) s) :
    ∃ t, step s = .next t ∧
      responseOf (.enc c) t = some (.wave ((List.range (bits.length * cfg.spb)).map (sampleAt c cfg.spb bits))) ∧
      t.err = false := by
  have hw := h.passWait
  have hmore : ¬ s.passWait.n < s.passWait.nbits := fun hlt => by
    have := (encRunning_k_lt_iff hw.running).2 hlt
    rw [hw.k_eq, hw.nbits, hw.cfg_eq] at this
    exact lt_irrefl _ this
  have hn : s.passWait.n = s.passWait.nbits := le_antisymm hw.running.n (Nat.le_of_not_lt hmore)
  refine ⟨s.passWait.complete (.enc c), ?_, by simpa using h.waveOut, by simpa using h.err⟩
  rw [h.step_eq, exec_enc, enc_complete_of hw.busy hn]

/-! ### Whole requests -/

/-- Whatever an idle block with parameters `cfg` holds, request `r` of command `i` ends after its counted steps with response
`resp` and `ERR` at `err`, if the host asserts no reset. -/
def Answers (cfg : Config) (i : Instr) (r : Request) (resp : Response) (err : Bool) : Prop :=
  ∀ rest s, Accepts i r rest s → s.cfg = cfg → ResetFree rest →
    ∃ t, runSteps (requestSteps cfg i r) s = .next t ∧ responseOf i t = some resp ∧ t.err = err

theorem step_of_accepts_word {i r rest s} (h : Accepts i r rest s) (hw : r.word = encode i) : step s = exec i s :=
  step_of_accepts h (hw ▸ decode_encode i)

/-- The run of a request that is one atomic step. -/
theorem runSteps_atomic {i r rest s t} (h : Accepts i r rest s) (hw : r.word = encode i) (ht : exec i s = .next t) :
    runSteps 1 s = .next t := by
  rw [runSteps_succ ((step_of_accepts_word h hw).trans ht), runSteps_zero]

/-- The run of a request that is an accept step, `N` counted steps and a completion step. -/
theorem runSteps_accept_complete {N : Nat} {s u v t : State} (haccept : step s = .next u) (hrun : runSteps N u = .next v)
    (hlast : step v = .next t) : runSteps (N + 2) s = .next t := by
  rw [runSteps_succ haccept, runSteps_add hrun, runSteps_succ hlast, runSteps_zero]

/-- The response to a `PARSE` of mode `m` whose parser answers `parsed` (30_encoding.md R83). -/
def parsedResponse (m : Mode) (parsed : Option (List Byte)) : Response := parsed.elim (.invalidInput m) .bytes

theorem parse_answers {cfg m r} (hw : r.word = encode (.parse m)) :
    Answers cfg (.parse m) r (parsedResponse m (parseText cfg m r.text)) (parseText cfg m r.text).isNone := by
  rintro rest s h rfl -
  have hsteps : requestSteps s.cfg (.parse m) r = 1 := by simp [requestSteps]
  have hrun {t} (ht : parseCommand (.parse m) m (parseText · m) s = .next t) : runSteps 1 s = .next t :=
    runSteps_atomic h hw ((exec_parse m s).trans ht)
  rw [hsteps]
  rcases hp : parseText s.cfg m r.text with _ | b
  · refine ⟨_, hrun (parse_effect.2 ⟨h.idle, r, h.offered, h.fits, .inl ⟨hp, rfl⟩⟩), ?_, rfl⟩
    cases m <;> rfl
  · refine ⟨_, hrun (parse_effect.2 ⟨h.idle, r, h.offered, h.fits, .inr ⟨b, hp, rfl⟩⟩), ?_, rfl⟩
    simp [parseResponse, parsedResponse]

theorem extract_answers {cfg r} (hw : r.word = encode .extract) :
    Answers cfg .extract r (.bits (extractBits r.bytes)) false := by
  rintro rest s h rfl hfree
  have haccept : step s = .next ((s.accept .extract).acceptExtract r) := by
    rw [step_of_accepts_word h hw, exec, execExtract, h.idle]
    exact onAccept_of_accepts h
  obtain ⟨u, hrun, hu⟩ := runSteps_counted (fun _ _ => ExtractAt.bit_step) (Nat.zero_add _) (extractAt_accept h hfree)
  obtain ⟨t, hlast, hresp, herr⟩ := hu.complete
  exact ⟨t, runSteps_accept_complete haccept hrun hlast, hresp, herr⟩

theorem enc_answers {cfg c r} (hw : r.word = encode (.enc c)) :
    Answers cfg (.enc c) r (.wave ((List.range (r.bits.length * cfg.spb)).map (sampleAt c cfg.spb r.bits))) false := by
  rintro rest s h rfl hfree
  have haccept : step s = .next ((s.accept (.enc c)).acceptEnc r) := by
    rw [step_of_accepts_word h hw, exec_enc, encCommand, h.idle]
    exact onAccept_of_accepts h
  have hsteps : requestSteps s.cfg (.enc c) r = r.bits.length * s.cfg.spb + 2 := by simp [requestSteps]
  obtain ⟨u, hrun, hu⟩ := runSteps_counted (fun _ _ => EncAt.sample_step) (Nat.zero_add _) (encAt_accept h hfree)
  obtain ⟨t, hlast, hresp, herr⟩ := hu.complete
  exact ⟨t, hsteps ▸ runSteps_accept_complete haccept hrun hlast, hresp, herr⟩

theorem schemes_answers {cfg r} (hw : r.word = encode .schemes) :
    Answers cfg .schemes r (.registry registry) false := by
  rintro rest s h rfl -
  have hexec := schemes_effect.2 ⟨h.idle, r, h.offered, h.fits, rfl⟩
  exact ⟨_, runSteps_atomic h hw hexec, rfl, rfl⟩

/-- The answer to a request is fixed by the block's parameters, the command and the request (10_state.md R20). -/
theorem exists_answers (cfg : Config) {i : Instr} {r : Request} (hw : r.word = encode i) :
    ∃ resp err, Answers cfg i r resp err := by
  rcases Instr.class_cases i with ⟨m, rfl⟩ | rfl | ⟨c, rfl⟩ | rfl
  · exact ⟨_, _, parse_answers hw⟩
  · exact ⟨_, _, extract_answers hw⟩
  · exact ⟨_, _, enc_answers hw⟩
  · exact ⟨_, _, schemes_answers hw⟩

/-- Settles O58: both blocks give the one answer that the parameters and the request fix. -/
theorem nothingCarriesOver : Obligations.NothingCarriesOver := by
  unfold Obligations.NothingCarriesOver
  intro i r rest s1 s2 h1 h2 hcfg hw hfree
  obtain ⟨resp, err, hans⟩ := exists_answers s1.cfg hw
  obtain ⟨t1, run1, resp1, err1⟩ := hans rest s1 h1 rfl hfree
  obtain ⟨t2, run2, resp2, err2⟩ := hans rest s2 h2 hcfg.symm hfree
  exact ⟨t1, t2, resp, run1, run2, resp1, resp2, err1.trans err2.symm⟩

end Sys2Proof.Machine
end

section
/-! SUPPORT. The shape of a Waveform: how many samples it has and at which times, in every scheme. -/

namespace Sys2Proof.Machine

/-! ### The length law -/

theorem amiLevels_length (spb : Nat) (pol : Polarity) (bits : List Bit) :
    (amiLevels spb pol bits).length = bits.length * spb := by
  induction bits generalizing pol with
  | nil => simp [amiLevels]
  | cons x bits ih => cases x <;> simp [amiLevels, bitBlock_length, ih, Nat.succ_mul, Nat.add_comm]

/-- Every scheme gives `SPB` levels per bit (20_memory.md R58). -/
theorem encodeLevels_length (c : Scheme) (spb : Nat) (bits : List Bit) :
    (encodeLevels c spb bits).length = bits.length * spb := by
  by_cases hc : c = .ami
  · simp [encodeLevels, hc, amiLevels_length]
  · simp [encodeLevels, hc, bitBlock_length, List.length_flatMap]

theorem levelsOf_encodeWave (c : Scheme) (spb : Nat) (bits : List Bit) :
    levelsOf (encodeWave c spb bits) = encodeLevels c spb bits := by
  simp [levelsOf, encodeWave, stamp, Function.comp_def]

/-! ### The time axis -/

/-- The times of `samples` samples from 0 on, `1 / SPB` apart (20_memory.md R58). -/
def sampleTimes (spb samples : Nat) : List Rat := (List.range samples).map fun k : Nat => (k : Rat) / (spb : Rat)

theorem stamp_times (l : List Level) : (stamp l).map Sample.time = List.range l.length := by
  simp [stamp, Function.comp_def, List.range_eq_range']

/-- The times depend on neither the scheme nor the values of the bits (42_line_code_generators.md R157). -/
theorem timesOf_encodeWave (c : Scheme) (spb : Nat) (bits : List Bit) :
    timesOf spb (encodeWave c spb bits) = sampleTimes spb (bits.length * spb) := by
  calc timesOf spb (encodeWave c spb bits)
      = ((stamp (encodeLevels c spb bits)).map Sample.time).map fun k : Nat => (k : Rat) / (spb : Rat) := by
        rw [List.map_map]; rfl
    _ = sampleTimes spb (bits.length * spb) := by rw [stamp_times, encodeLevels_length, sampleTimes]

@[simp] theorem sampleTimes_length (spb samples : Nat) : (sampleTimes spb samples).length = samples := by
  simp [sampleTimes]

theorem sampleTimes_getElem? {spb samples k : Nat} (hk : k < samples) :
    (sampleTimes spb samples)[k]? = some ((k : Rat) / (spb : Rat)) := by
  simp [sampleTimes, hk]

theorem sampleTimes_pairwise_lt {spb : Nat} (hspb : 1 ≤ spb) (samples : Nat) :
    (sampleTimes spb samples).Pairwise (· < ·) := by
  have hpos : (0 : Rat) < spb := Nat.cast_pos.2 hspb
  exact List.pairwise_lt_range.map _ fun j k hjk => div_lt_div_of_pos_right (Nat.cast_lt.2 hjk) hpos

/-- The times of `n` bits lie in `[0, n)`. -/
theorem mem_sampleTimes_bounds {spb n : Nat} (hspb : 1 ≤ spb) {t : Rat} (ht : t ∈ sampleTimes spb (n * spb)) :
    0 ≤ t ∧ t < (n : Rat) := by
  have hpos : (0 : Rat) < spb := Nat.cast_pos.2 hspb
  obtain ⟨k, hk, rfl⟩ := List.mem_map.1 ht
  have hlt : (k : Rat) < n * spb := by exact_mod_cast List.mem_range.1 hk
  exact ⟨div_nonneg k.cast_nonneg hpos.le, (div_lt_iff₀ hpos).2 hlt⟩

theorem sampleTimes_head? {spb samples : Nat} (h : 0 < samples) : (sampleTimes spb samples).head? = some 0 := by
  rw [List.head?_eq_getElem?, sampleTimes_getElem? h, Nat.cast_zero, zero_div]

/-- The last time of `n` bits is one sample before the end of bit `n - 1`. -/
theorem sampleTimes_getLast? {spb n : Nat} (hspb : 1 ≤ spb) (hn : 0 < n) :
    (sampleTimes spb (n * spb)).getLast? = some ((n : Rat) - 1 / (spb : Rat)) := by
  have hsamples : 0 < n * spb := Nat.mul_pos hn hspb
  have hne : (spb : Rat) ≠ 0 := Nat.cast_ne_zero.2 (Nat.one_le_iff_ne_zero.1 hspb)
  have hlast : ((n * spb - 1 : Nat) : Rat) / spb = n - 1 / spb := by
    rw [Nat.cast_sub hsamples, Nat.cast_mul, Nat.cast_one, sub_div, mul_div_cancel_right₀ _ hne]
  rw [List.getLast?_eq_getElem?, sampleTimes_length, sampleTimes_getElem? (by omega), hlast]

/-- Settles O38: every scheme's levels number `N * SPB`, and its times are the time axis of that many samples. -/
theorem timeAxis : Obligations.TimeAxis := by
  unfold Obligations.TimeAxis
  intro c spb bits hspb
  simp only [timesOf_encodeWave, levelsOf_encodeWave, encodeLevels_length, sampleTimes_length, true_and]
  refine ⟨fun k => sampleTimes_getElem?, sampleTimes_pairwise_lt hspb _, fun t => mem_sampleTimes_bounds hspb,
    fun hbits => ?_, fun d other hlen => by rw [hlen]⟩
  have hn : 0 < bits.length := List.length_pos_iff.2 hbits
  exact ⟨sampleTimes_head? (Nat.mul_pos hn hspb), sampleTimes_getLast? hspb hn⟩

end Sys2Proof.Machine
end

section
/-! SUPPORT. The fields of the block's words: which command words are reserved, and the codes of the levels. -/

namespace Sys2Proof.Machine

/-! ### Reserved command words -/

theorem modeOfNum_eq_none_iff {n : Nat} : Mode.ofNum n = none ↔ 3 ≤ n := by
  match n with
  | 0 | 1 | 2 => simp [Mode.ofNum]
  | n + 3 => simp [Mode.ofNum]

theorem schemeOfNum_eq_none_iff {n : Nat} : Scheme.ofNum n = none ↔ 9 ≤ n := by
  match n with
  | 0 | 1 | 2 | 3 | 4 | 5 | 6 | 7 | 8 => simp [Scheme.ofNum]
  | n + 9 => simp [Scheme.ofNum]

section
variable {w : Byte}

theorem reserved_parse_iff (h : opField w = 0) : (∃ why, decode w = .reserved why) ↔ 3 ≤ (selField w).toNat := by
  rw [← modeOfNum_eq_none_iff]
  rcases hm : Mode.ofNum (selField w).toNat with _ | m <;> simp [decode, h, hm]

theorem reserved_extract_iff (h : opField w = 1) : (∃ why, decode w = .reserved why) ↔ selField w ≠ 0 := by
  by_cases hsel : selField w = 0#4 <;> simp [decode, h, hsel]

theorem reserved_enc_iff (h : opField w = 2) : (∃ why, decode w = .reserved why) ↔ 9 ≤ (selField w).toNat := by
  rw [← schemeOfNum_eq_none_iff]
  rcases hc : Scheme.ofNum (selField w).toNat with _ | c <;> simp [decode, h, hc]

theorem reserved_schemes_iff (h : opField w = 3) : (∃ why, decode w = .reserved why) ↔ selField w ≠ 0 := by
  by_cases hsel : selField w = 0#4 <;> simp [decode, h, hsel]

theorem decode_of_four_le_op (h : 4 ≤ (opField w).toNat) : decode w = .reserved .opClass := by
  unfold decode
  split
  case h_5 => rfl
  all_goals omega

end

/-- An `OP` value is one of the four classes of commands or above them (30_encoding.md R77). -/
theorem op_class_cases (op : BitVec 4) : op = 0 ∨ op = 1 ∨ op = 2 ∨ op = 3 ∨ 4 ≤ op.toNat := by
  bv_omega

/-- The words of R89, class by class. -/
theorem decode_reserved_iff (w : Byte) : (∃ why, decode w = .reserved why) ↔
    (4 ≤ (opField w).toNat ∨ (opField w = 0 ∧ 3 ≤ (selField w).toNat) ∨ (opField w = 1 ∧ selField w ≠ 0) ∨
      (opField w = 2 ∧ 9 ≤ (selField w).toNat) ∨ (opField w = 3 ∧ selField w ≠ 0)) := by
  rcases op_class_cases (opField w) with h | h | h | h | h
  · simp [reserved_parse_iff h, h]
  · simp [reserved_extract_iff h, h]
  · simp [reserved_enc_iff h, h]
  · simp [reserved_schemes_iff h, h]
  · simp [decode_of_four_le_op h, h]

/-- The words that decode to a command are those of the opcode table (30_encoding.md R80), in its order. -/
theorem command_words :
    ((List.range 256).filter fun w => (decode (BitVec.ofNat 8 w)).toOption.isSome) =
      Instr.all.map fun i => (encode i).toNat := by decide

theorem reserved_words_length :
    ((List.range 256).filter fun w => (decode (BitVec.ofNat 8 w)).toOption.isNone).length = 242 := by
  have hsplit := List.length_eq_length_filter_add (l := List.range 256) fun w =>
    (decode (BitVec.ofNat 8 w)).toOption.isSome
  have hcommands : (Instr.all.map fun i => (encode i).toNat).length = 14 := rfl
  simp only [command_words, hcommands, Option.not_isSome, List.length_range] at hsplit
  omega

/-- An idle block refuses an offered reserved word (60_exceptions.md R226). -/
theorem step_of_reserved {s : State} {r : Request} {rest : List HostMove} {why : Reserved} (hspb : 1 ≤ s.cfg.spb)
    (hidle : s.st = .idle) (hoffer : s.host = .request r :: rest) (hd : decode r.word = .reserved why) :
    step s = .refused (.reservedWord r.word why) := by
  have hr : s.resetAsserted = false := by simp [State.resetAsserted, hoffer]
  have hf : s.fetch = some r.word := by simp [State.fetch, State.offered, hidle, hoffer]
  simp [step, Nat.one_le_iff_ne_zero.1 hspb, hr, hf, hd, badWord, hidle]

/-- Settles O3: the five classes of words, the count as what the fourteen command words leave of 256, and the refusal. -/
theorem reservedWordsRefused : Obligations.ReservedWordsRefused := by
  unfold Obligations.ReservedWordsRefused
  exact ⟨decode_reserved_iff, reserved_words_length, fun _ _ _ _ => step_of_reserved⟩

/-! ### The codes of the levels -/

/-- A level's code is its value in two's complement (30_encoding.md R85). -/
@[simp] theorem Level.code_toInt (l : Level) : l.code.toInt = l.val := by cases l <;> rfl

/-- Settles O43: `0b10` is -2 in two's complement, which is no level's value. -/
theorem levelFieldCodes : Obligations.LevelFieldCodes := by
  unfold Obligations.LevelFieldCodes
  refine ⟨rfl, rfl, rfl, fun l => ⟨fun h => ?_, l.code_toInt⟩⟩
  have hval : l.val = -2 := by rw [← l.code_toInt, h]; rfl
  cases l <;> simp [Level.val] at hval

end Sys2Proof.Machine
end

section
/-! SUPPORT. The Value Parser in Integer mode: the texts it reads as literals, against the grammar of 40_value_parser.md. -/

namespace Sys2Proof.Machine

/-! ### Literals -/

@[simp] theorem intLiteral_nil : intLiteral? [] = none := rfl

@[simp] theorem intLiteral_minus (t : Text) : intLiteral? ('-' :: t) = (magnitude? t).map fun (m : Nat) => -(m : Int) := rfl

theorem intLiteral_unsigned {c : Char} (hc : c ≠ '-') (t : Text) :
    intLiteral? (c :: t) = (magnitude? (c :: t)).map fun (m : Nat) => (m : Int) := by
  simp [intLiteral?, hc]

theorem not_gInt_nil (v : Int) : ¬ GInt [] v := by
  rintro ⟨⟨⟩⟩

theorem gInt_minus_iff {t : Text} {v : Int} : GInt ('-' :: t) v ↔ ∃ m : Nat, Magnitude t m ∧ -(m : Int) = v := by
  constructor
  · intro h
    cases h with
    | unsigned hm => exact absurd hm (not_magnitude_minus _ _)
    | signed hm => exact ⟨_, hm, rfl⟩
  · rintro ⟨m, hm, rfl⟩
    exact .signed hm

theorem gInt_unsigned_iff {c : Char} {t : Text} {v : Int} (hc : c ≠ '-') :
    GInt (c :: t) v ↔ ∃ m : Nat, Magnitude (c :: t) m ∧ (m : Int) = v := by
  constructor
  · intro h
    cases h with
    | unsigned hm => exact ⟨_, hm, rfl⟩
    | signed _ => exact absurd rfl hc
  · rintro ⟨m, hm, rfl⟩
    exact .unsigned hm

/-- What is read as an integer literal. -/
theorem intLiteral_eq_some (t : Text) (v : Int) : intLiteral? t = some v ↔ GInt t v := by
  rcases t with _ | ⟨c, rest⟩
  · simp [not_gInt_nil]
  · by_cases hc : c = '-'
    · subst hc
      simp [gInt_minus_iff, magnitude_eq_some]
    · simp [intLiteral_unsigned hc, gInt_unsigned_iff hc, magnitude_eq_some]

/-- Settles O10: sign by sign, over the magnitudes. -/
theorem integerLiteralsAreTheGrammar : Obligations.IntegerLiteralsAreTheGrammar := by
  unfold Obligations.IntegerLiteralsAreTheGrammar
  exact intLiteral_eq_some

/-- Integer mode serialises a literal that is not negative, whatever the parameters (40_value_parser.md R101, R105). -/
theorem parseText_of_gInt {t : Text} {n : Nat} (h : GInt t n) (cfg : Config) :
    parseText cfg .integer t = some (bytesOfNat n) := by
  simp [parseText, parseIntText, (intLiteral_eq_some t n).2 h]

end Sys2Proof.Machine
end

section
/-! SUPPORT. The serialisation of a natural number: minimal and big-endian (40_value_parser.md R105). -/

namespace Sys2Proof.Machine

/-! ### Bit length -/

/-- `bitlen` is the least number of bits that hold the value (20_memory.md R52). -/
theorem bitLen_le_iff {v k : Nat} : bitLen v ≤ k ↔ v < 2 ^ k := by
  rcases eq_or_ne v 0 with rfl | hv
  · simp [bitLen]
  · rw [bitLen, if_neg hv, Nat.succ_le_iff, Nat.log2_lt hv]

theorem lt_two_pow_bitLen (v : Nat) : v < 2 ^ bitLen v := bitLen_le_iff.1 le_rfl

theorem two_pow_bitLen_le {v : Nat} (hv : v ≠ 0) : 2 ^ (bitLen v - 1) ≤ v := by
  rw [bitLen, if_neg hv]
  exact Nat.log2_self_le hv

theorem byte_pow_eq (n : Nat) : 256 ^ n = 2 ^ (8 * n) := (pow_mul 2 8 n).symm

/-- A value is below `256 ^ n` exactly when its bits fill at most `n` bytes. -/
theorem lt_byte_pow_iff {v n : Nat} : v < 256 ^ n ↔ (bitLen v + 7) / 8 ≤ n := by
  rw [byte_pow_eq, ← bitLen_le_iff]
  omega

/-! ### Serialisation -/

/-- The value of a byte sequence, most significant byte first (40_value_parser.md R105). -/
def valBytes (b : List Byte) : Nat := valBase 256 (b.map BitVec.toNat)

@[simp] theorem valBytes_nil : valBytes [] = 0 := rfl

theorem valBytes_cons (x : Byte) (b : List Byte) : valBytes (x :: b) = x.toNat * 256 ^ b.length + valBytes b := by
  have := valBase_append 256 [x.toNat] (b.map BitVec.toNat)
  simpa [valBytes, valBase] using this

theorem valBytes_lt (b : List Byte) : valBytes b < 256 ^ b.length := by
  have := valBase_lt 256 (b.map BitVec.toNat) (by simpa using fun x _ => x.isLt)
  simpa [valBytes] using this

/-- The lowest `n` digits of a value, most significant first, give the value below `base ^ n`. -/
theorem valBase_lowDigits (base v n : Nat) :
    valBase base ((List.range n).map fun j => v / base ^ (n - 1 - j) % base) = v % base ^ n := by
  induction n with
  | zero => simp [valBase, Nat.mod_one]
  | succ n ih =>
    have hlower : ((List.range n).map fun j => v / base ^ (n - (j + 1)) % base) =
        (List.range n).map fun j => v / base ^ (n - 1 - j) % base := by
      simp only [Nat.sub_sub, Nat.add_comm]
    have hsplit := valBase_append base [v / base ^ n % base] ((List.range n).map fun j => v / base ^ (n - 1 - j) % base)
    rw [ih] at hsplit
    calc valBase base ((List.range (n + 1)).map fun j => v / base ^ (n + 1 - 1 - j) % base)
        = valBase base ([v / base ^ n % base] ++ (List.range n).map fun j => v / base ^ (n - 1 - j) % base) := by
          simp [List.range_succ_eq_map, Function.comp_def, hlower]
      _ = v / base ^ n % base * base ^ n + v % base ^ n := by simpa [valBase] using hsplit
      _ = v % base ^ (n + 1) := by rw [Nat.mod_pow_succ]; ring

/-- Serialised bytes read back as their value. -/
theorem valBytes_bytesOfNat (v : Nat) : valBytes (bytesOfNat v) = v := by
  have hlt : v < 256 ^ max 1 ((bitLen v + 7) / 8) := lt_byte_pow_iff.2 (le_max_right _ _)
  calc valBytes (bytesOfNat v) = v % 256 ^ max 1 ((bitLen v + 7) / 8) := by
        simp [valBytes, bytesOfNat, Function.comp_def, valBase_lowDigits]
    _ = v := Nat.mod_eq_of_lt hlt

/-- No non-empty byte sequence of the same value is shorter (20_memory.md R52). -/
theorem bytesOfNat_length_le {b : List Byte} (hne : b ≠ []) : (bytesOfNat (valBytes b)).length ≤ b.length := by
  rw [bytesOfNat_length]
  exact max_le (List.length_pos_iff.2 hne) (lt_byte_pow_iff.1 (valBytes_lt b))

/-- A leading zero byte could be dropped, against minimality. -/
theorem bytesOfNat_head_ne_zero {v : Nat} (hv : v ≠ 0) : ∃ b rest, bytesOfNat v = b :: rest ∧ b ≠ 0 := by
  have hval := valBytes_bytesOfNat v
  rcases hb : bytesOfNat v with _ | ⟨b, rest⟩
  · rw [hb, valBytes_nil] at hval
    exact absurd hval.symm hv
  · refine ⟨b, rest, rfl, fun hzero => ?_⟩
    have hrest : valBytes rest = v := by rw [← hval, hb, valBytes_cons, hzero]; simp
    have hne : rest ≠ [] := fun hnil => hv (by rw [← hrest, hnil, valBytes_nil])
    have hshort := bytesOfNat_length_le hne
    rw [hrest, hb, List.length_cons] at hshort
    omega

theorem bytesOfNat_zero : bytesOfNat 0 = [0] := rfl

/-- Settles O13: the bytes are the value's base-256 digits, as many as its bits need. -/
theorem serialisationIsMinimalBigEndian : Obligations.SerialisationIsMinimalBigEndian := by
  unfold Obligations.SerialisationIsMinimalBigEndian
  intro v
  refine ⟨rfl, fun hv => ⟨two_pow_bitLen_le hv, lt_two_pow_bitLen v⟩, bytesOfNat_length v, bytesOfNat_getElem v,
    bytesOfNat_head_ne_zero, bytesOfNat_zero, valBytes_bytesOfNat v, ?_⟩
  rintro bytes hne rfl
  exact bytesOfNat_length_le hne

/-! ### Literals of value 0 -/

/-- Settles O15: a literal's bytes are those of its value, and the six texts are read as 0. -/
theorem zeroLiteralsGiveOneZeroByte : Obligations.ZeroLiteralsGiveOneZeroByte := by
  unfold Obligations.ZeroLiteralsGiveOneZeroByte
  refine ⟨fun cfg t h => parseText_of_gInt h cfg, fun t ht => (intLiteral_eq_some t 0).1 ?_⟩
  revert t
  decide

end Sys2Proof.Machine
end

section
/-! SUPPORT. The round trip of 40_value_parser.md R108: from a decimal text to bytes, to bits and back. -/

namespace Sys2Proof.Machine

/-! ### Decimal texts -/

theorem isDigit_digitChar {d : Nat} (hd : d < 10) : IsDigit 10 d.digitChar d := by
  have hall : ∀ d < 10, digitVal? 10 (Nat.digitChar d) = some d := by decide
  exact (digitVal_eq_some _ _ _).1 (hall d hd)

theorem digits_toDigits (n : Nat) : Digits 10 (Nat.toDigits 10 n) n := by
  induction n using Nat.strong_induction_on with
  | _ n ih =>
    rcases Nat.lt_or_ge n 10 with hn | hn
    · rw [Nat.toDigits_of_lt_base hn]
      exact .one (isDigit_digitChar hn)
    · have hsnoc := Digits.snoc (ih (n / 10) (by omega)) (isDigit_digitChar (Nat.mod_lt n (by decide)))
      rwa [Nat.div_add_mod', ← Nat.toDigits_of_base_le (by decide) hn] at hsnoc

/-- The decimal text of a positive number has no leading zero. -/
theorem toDigits_head_ne_zero {n : Nat} (hn : 0 < n) : ∃ c t, Nat.toDigits 10 n = c :: t ∧ c ≠ '0' := by
  induction n using Nat.strong_induction_on with
  | _ n ih =>
    rcases Nat.lt_or_ge n 10 with hlt | hge
    · have hall : ∀ d < 10, 0 < d → Nat.digitChar d ≠ '0' := by decide
      exact ⟨_, [], Nat.toDigits_of_lt_base hlt, hall n hlt hn⟩
    · obtain ⟨c, t, htext, hc⟩ := ih (n / 10) (by omega) (by omega)
      exact ⟨c, t ++ [(n % 10).digitChar], by rw [Nat.toDigits_of_base_le (by decide) hge, htext, List.cons_append], hc⟩

/-- The decimal text of a number is a magnitude of that value (40_value_parser.md R102, R103). -/
theorem magnitude_toDigits (n : Nat) : Magnitude (Nat.toDigits 10 n) n := by
  rcases Nat.eq_zero_or_pos n with rfl | hn
  · rw [Nat.toDigits_zero]
    exact .zero
  · obtain ⟨c, t, htext, hc⟩ := toDigits_head_ne_zero hn
    have hdigits := digits_toDigits n
    rw [htext] at hdigits ⊢
    exact .decimal hc hdigits

/-! ### From bytes to bits -/

theorem valBits_append (a b : List Bit) : valBits (a ++ b) = valBits a * 2 ^ b.length + valBits b := by
  simp [valBits, valBase_append]

/-- The bits of a byte sequence have its value (41_bit_extractor.md R130). -/
theorem valBits_extractBits (b : List Byte) : valBits (extractBits b) = valBytes b := by
  induction b with
  | nil => rfl
  | cons x b ih =>
    have hcons : extractBits (x :: b) = (List.range 8).map (bitOfByte x) ++ extractBits b := rfl
    rw [hcons, valBits_append, valBits_of_byte, extractBits_length, ← byte_pow_eq, ih, valBytes_cons]

/-- Settles O14: the text is a literal of value `n`, its bytes have value `n`, and so have their bits. -/
theorem decimalTextRoundTrip : Obligations.DecimalTextRoundTrip := by
  unfold Obligations.DecimalTextRoundTrip
  intro cfg n
  refine ⟨bytesOfNat n, parseText_of_gInt (.unsigned (magnitude_toDigits n)) cfg, ?_, ?_⟩
  · rw [extractBits_length, Nat.mul_mod_right]
  · rw [valBits_extractBits, valBytes_bytesOfNat]

end Sys2Proof.Machine
end

section
/-! SUPPORT. The Bit Extractor's answer and its length (41_bit_extractor.md R130, R131, R133). -/

namespace Sys2Proof.Machine

/-- Bit position `q` comes from byte `floor(q / 8)` (41_bit_extractor.md R131). -/
theorem extractBits_getElem?_of_lt {b : List Byte} {q : Nat} (hq : q < 8 * b.length) :
    ∃ v, b[q / 8]? = some v ∧ (extractBits b)[q]? = some (bitOfByte v (q % 8)) := by
  have hbyte : b[q / 8]? = some b[q / 8] := List.getElem?_eq_getElem (by omega)
  have hbit := extractBits_getElem? b (q / 8) (q % 8) (by omega)
  rw [Nat.div_add_mod, hbyte, Option.map_some] at hbit
  exact ⟨_, hbyte, hbit⟩

theorem bitOfByte_eq_decide (v : Byte) (i : Nat) : bitOfByte v i = decide (v.toNat / 2 ^ (7 - i) % 2 = 1) := rfl

/-- Settles O23: the counted run of `EXTRACT` answers the functional form, whose bit `q` is the bit formula's. -/
theorem extractRunAnswersTheBits : Obligations.ExtractRunAnswersTheBits := by
  unfold Obligations.ExtractRunAnswersTheBits
  refine ⟨fun r rest s h hword hfree => ?_, fun b q hq => ?_, extractBits_length⟩
  · obtain ⟨t, hrun, hresp, herr⟩ := extract_answers hword rest s h rfl hfree
    exact ⟨t, hrun, (responseOf_eq_some.1 hresp).1, herr, hresp⟩
  · obtain ⟨v, hbyte, hbit⟩ := extractBits_getElem?_of_lt hq
    exact ⟨v, hbyte, bitOfByte_eq_getLsbD v _ ▸ hbit, bitOfByte_eq_decide v _ ▸ hbit⟩

/-- Settles O25: eight bits a byte, so a multiple of 8. -/
theorem bitLengthLaw : Obligations.BitLengthLaw := by
  unfold Obligations.BitLengthLaw
  intro b
  have hlen := extractBits_length b
  exact ⟨hlen, by rw [hlen, Nat.mul_mod_right]⟩

end Sys2Proof.Machine
end

section
/-! SUPPORT. The two halves of a bit block (42_line_code_generators.md R142). -/

namespace Sys2Proof.Machine

/-! ### The first-half predicate over a block -/

theorem firstHalf_iff {spb p : Nat} : firstHalf spb p = true ↔ p < spb / 2 := decide_eq_true_iff

/-- Over the phases of a block the predicate holds `floor(SPB / 2)` times, then fails for the rest. -/
theorem map_firstHalf_range (spb : Nat) :
    (List.range spb).map (firstHalf spb) = List.replicate (spb / 2) true ++ List.replicate (spb - spb / 2) false := by
  have hphases : List.range spb = List.range (spb / 2) ++ (List.range (spb - spb / 2)).map (spb / 2 + ·) := by
    rw [← List.range_add, Nat.add_sub_cancel' (Nat.div_le_self spb 2)]
  rw [hphases, List.map_append]
  congr 1
  · simp [List.eq_replicate_iff, firstHalf_iff]
  · simp [List.eq_replicate_iff, firstHalf]

/-- A level that depends on the half alone gives a block of two constant runs. -/
theorem bitBlock_of_firstHalf (spb : Nat) (lvl : Bool → Level) :
    bitBlock spb (fun p => lvl (firstHalf spb p)) =
      List.replicate (spb / 2) (lvl true) ++ List.replicate (spb - spb / 2) (lvl false) := by
  calc bitBlock spb (fun p => lvl (firstHalf spb p)) = ((List.range spb).map (firstHalf spb)).map lvl := by
        simp [bitBlock, Function.comp_def]
    _ = _ := by simp [map_firstHalf_range]

/-- Phases of a block picked by their half are counted in the two runs. -/
theorem length_filter_firstHalf (spb : Nat) (pick : Bool → Bool) :
    ((List.range spb).filter fun p => pick (firstHalf spb p)).length =
      (List.replicate (spb / 2) true ++ List.replicate (spb - spb / 2) false).countP pick := by
  rw [← map_firstHalf_range, List.countP_map, List.countP_eq_length_filter]
  rfl

/-- Settles O39: both counts are read off the two runs, and `H` is 0 for `SPB` 1. -/
theorem halfBlockSplit : Obligations.HalfBlockSplit := by
  unfold Obligations.HalfBlockSplit
  refine ⟨fun spb => ⟨?_, ?_, fun p => firstHalf_iff⟩, rfl, rfl, rfl, fun p => ?_⟩
  · simpa [List.countP_replicate] using length_filter_firstHalf spb id
  · simpa [List.countP_replicate] using length_filter_firstHalf spb not
  · exact decide_eq_false (Nat.not_lt_zero p)

/-! ### Manchester -/

/-- The block of a 1-bit is low, then high (R150, R159). -/
theorem encodeLevels_man_singleton_true (spb : Nat) :
    encodeLevels .man spb [true] = List.replicate (spb / 2) .neg ++ List.replicate (spb - spb / 2) .pos := by
  calc encodeLevels .man spb [true] = bitBlock spb (fun p => if true == firstHalf spb p then .neg else .pos) :=
        List.append_nil _
    _ = _ := bitBlock_of_firstHalf spb fun first => if true == first then .neg else .pos

/-- Settles O40: the two runs of the 1-bit's block, both non-empty from `SPB` 2 on, the first empty for `SPB` 1. -/
theorem manchesterMidBitStep : Obligations.ManchesterMidBitStep := by
  unfold Obligations.ManchesterMidBitStep
  exact ⟨fun spb hspb => ⟨by omega, by omega, encodeLevels_man_singleton_true spb⟩, encodeLevels_man_singleton_true 1⟩

end Sys2Proof.Machine
end

section
/-! SUPPORT. The samples of a Waveform by their index: which bit and which phase, at which polarity. -/

namespace Sys2Proof.Machine

/-- The AMI fold goes on from the bits seen before: one more bit adds one block, at the polarity after that bit
(42_line_code_generators.md R149, R154). -/
theorem amiLevels_snoc (spb : Nat) (seen bits : List Bit) (x : Bit) :
    amiLevels spb (polAfter seen) (bits ++ [x]) =
      amiLevels spb (polAfter seen) bits ++ bitBlock spb fun _ => lvlAmi x (polAfter (seen ++ bits ++ [x])) := by
  induction bits generalizing seen with
  | nil => cases x <;> simp [amiLevels, polAfter_snoc]
  | cons y bits ih =>
    have hy := ih (seen ++ [y])
    cases y <;> simpa [amiLevels, polAfter_snoc] using hy

/-- One more bit adds one block, at the polarity after that bit; only AMI looks at it. -/
theorem encodeLevels_snoc (c : Scheme) (spb : Nat) (bits : List Bit) (x : Bit) :
    encodeLevels c spb (bits ++ [x]) =
      encodeLevels c spb bits ++ bitBlock spb fun p => level c spb x p (polAfter (bits ++ [x])) := by
  by_cases hc : c = .ami
  · subst hc
    exact amiLevels_snoc spb [] bits x
  · simp [encodeLevels, hc, level_pol_of_ne_ami hc spb x _ .minus (polAfter (bits ++ [x]))]

/-- Level `n * SPB + p` is that of bit `n` at phase `p`, at the polarity after that bit (42_line_code_generators.md R144). -/
theorem encodeLevels_getElem? {c : Scheme} {spb n p : Nat} {bits : List Bit} {x : Bit} (hx : bits[n]? = some x)
    (hp : p < spb) : (encodeLevels c spb bits)[n * spb + p]? = some (level c spb x p (polAfter (bits.take (n + 1)))) := by
  induction bits using List.reverseRecOn with
  | nil => cases hx
  | append_singleton bits y ih =>
    have hle : n ≤ bits.length := by simpa [Nat.lt_succ_iff] using (List.getElem?_eq_some_iff.1 hx).1
    rw [encodeLevels_snoc]
    rcases hle.lt_or_eq with hn | rfl
    · have hlt : n * spb + p < (encodeLevels c spb bits).length := by
        rw [encodeLevels_length]
        calc n * spb + p < (n + 1) * spb := by rw [Nat.succ_mul]; omega
          _ ≤ bits.length * spb := Nat.mul_le_mul_right _ hn
      rw [List.getElem?_append_left hlt, List.take_append_of_le_length hn]
      exact ih (by rwa [List.getElem?_append_left hn] at hx)
    · obtain rfl : y = x := by simpa using hx
      rw [List.getElem?_append_right (by rw [encodeLevels_length]; omega), encodeLevels_length, Nat.add_sub_cancel_left,
        List.take_of_length_le (by simp)]
      simp [bitBlock, hp]

theorem encodeWave_length (c : Scheme) (spb : Nat) (bits : List Bit) :
    (encodeWave c spb bits).length = bits.length * spb := by
  rw [encodeWave, stamp_length, encodeLevels_length]

/-- Sample `k` of every scheme at AMI's polarity: the other lanes do not look at it. -/
theorem sampleAt_eq (c : Scheme) (spb : Nat) (bits : List Bit) (k : Nat) :
    sampleAt c spb bits k =
      { time := k, level := level c spb (bits.getD (k / spb) false) (k % spb) (polAfter (bits.take (k / spb + 1))) } := by
  by_cases hc : c = .ami
  · rw [sampleAt, if_pos hc]
  · rw [sampleAt, level_pol_of_ne_ami hc]

/-- The functional form is the list of the samples that the sampler writes (43_sampler_step_machine.md R190). -/
theorem encodeWave_eq_map_sampleAt (c : Scheme) (spb : Nat) (bits : List Bit) :
    encodeWave c spb bits = (List.range (bits.length * spb)).map (sampleAt c spb bits) := by
  refine List.ext_getElem? fun k => ?_
  rw [encodeWave, stamp_getElem?, List.getElem?_map]
  rcases Nat.lt_or_ge k (bits.length * spb) with hk | hk
  · have hbit : bits[k / spb]? = some (bits.getD (k / spb) false) := by
      have hn : k / spb < bits.length := Nat.div_lt_of_lt_mul (by rwa [Nat.mul_comm])
      simp [hn]
    have hlevel := encodeLevels_getElem? (c := c) hbit (Nat.mod_lt k (Nat.pos_of_mul_pos_left (Nat.zero_lt_of_lt hk)))
    rw [Nat.div_add_mod'] at hlevel
    rw [hlevel, List.getElem?_range hk, Option.map_some, Option.map_some, sampleAt_eq]
  · rw [List.getElem?_eq_none (by rwa [encodeLevels_length]), List.getElem?_eq_none (by simpa using hk)]
    rfl

end Sys2Proof.Machine
end

section
/-! SUPPORT. The host's expansions `ENC.ALL` and `RENDER`, request by request (44_registry_and_composites.md section 2). -/

namespace Sys2Proof.Machine

/-! ### One transaction -/

theorem runSteps_keeps_cfg {k : Nat} {s t : State} (h : runSteps k s = .next t) : t.cfg = s.cfg := by
  induction k generalizing s with
  | zero => cases h; rfl
  | succ k ih =>
    rcases hs : step s with u | f | ρ
    · rw [runSteps_succ hs] at h
      rw [ih h, step_keeps_cfg hs]
    · simp [runSteps, hs] at h
    · simp [runSteps, hs] at h

/-- An idle block within whose bounds the operand is takes the one request offered and ends it, idle again, with the answer
that its parameters and the request fix. -/
theorem transact_of_answers {i : Instr} {r : Request} {resp : Response} {err : Bool} {s : State}
    (hans : Answers s.cfg i r resp err) (hspb : 1 ≤ s.cfg.spb) (hidle : s.st = .idle)
    (hfits : operandFits s.cfg i r = true) :
    ∃ t, transact i r s = .next t ∧ t.st = .idle ∧ t.cfg = s.cfg ∧ t.err = err ∧ responseOf i t = some resp := by
  obtain ⟨t, hrun, hresp, herr⟩ :=
    hans [] { s with host := [.request r] } ⟨hspb, hidle, rfl, hfits⟩ rfl List.not_mem_nil
  exact ⟨t, hrun, (responseOf_eq_some.1 hresp).1, by simpa using runSteps_keeps_cfg hrun, herr, hresp⟩

theorem transact_enc (c : Scheme) {bits : List Bit} {s : State} (hspb : 1 ≤ s.cfg.spb) (hidle : s.st = .idle)
    (hfits : withinBound s.cfg.maxBits bits.length = true) :
    ∃ t, transact (.enc c) (Request.enc c bits) s = .next t ∧ t.st = .idle ∧ t.cfg = s.cfg ∧
      t.waveOut = encodeWave c s.cfg.spb bits := by
  obtain ⟨t, hrun, hst, hcfg, -, hresp⟩ :=
    transact_of_answers (enc_answers (r := Request.enc c bits) rfl) hspb hidle (by rwa [operandFits, Instr.operand_enc])
  have hresult := (responseOf_eq_some.1 hresp).2.2
  simp only [resultOf_enc, Option.some.injEq, Response.wave.injEq] at hresult
  exact ⟨t, hrun, hst, hcfg, by rw [hresult, encodeWave_eq_map_sampleAt]; rfl⟩

theorem transact_extract {bytes : List Byte} {s : State} (hspb : 1 ≤ s.cfg.spb) (hidle : s.st = .idle)
    (hfits : withinBound s.cfg.maxBits (8 * bytes.length) = true) :
    ∃ t, transact .extract (Request.extract bytes) s = .next t ∧ t.st = .idle ∧ t.cfg = s.cfg ∧
      t.bitsOut = extractBits bytes := by
  obtain ⟨t, hrun, hst, hcfg, -, hresp⟩ :=
    transact_of_answers (extract_answers (r := Request.extract bytes) rfl) hspb hidle hfits
  have hresult := (responseOf_eq_some.1 hresp).2.2
  simp only [resultOf_extract, Option.some.injEq, Response.bits.injEq] at hresult
  exact ⟨t, hrun, hst, hcfg, hresult⟩

theorem transact_parse (m : Mode) {text : Text} {s : State} (hspb : 1 ≤ s.cfg.spb) (hidle : s.st = .idle)
    (hfits : withinBound s.cfg.maxText text.length = true) :
    ∃ t, transact (.parse m) (Request.parse m text) s = .next t ∧ t.st = .idle ∧ t.cfg = s.cfg ∧
      t.err = (parseText s.cfg m text).isNone ∧
      responseOf (.parse m) t = some (parsedResponse m (parseText s.cfg m text)) :=
  transact_of_answers (parse_answers (r := Request.parse m text) rfl) hspb hidle (by rwa [operandFits, Instr.operand_parse])

/-! ### `ENC.ALL` -/

/-- Each request's Waveform is that of its own scheme, whatever requests come before it (44_registry_and_composites.md R203). -/
theorem encEach_waveforms {bits : List Bit} (order : List Scheme) {s : State} (hspb : 1 ≤ s.cfg.spb)
    (hidle : s.st = .idle) (hfits : withinBound s.cfg.maxBits bits.length = true) :
    ∃ t, encEach bits order s = .next (order.map fun c => encodeWave c s.cfg.spb bits, t) ∧ t.st = .idle ∧
      t.cfg = s.cfg := by
  induction order generalizing s with
  | nil => exact ⟨s, rfl, hidle, rfl⟩
  | cons c rest ih =>
    obtain ⟨t, hrun, hst, hcfg, hwave⟩ := transact_enc c hspb hidle hfits
    obtain ⟨u, hrest, hu, hucfg⟩ := ih (hcfg ▸ hspb) hst (hcfg ▸ hfits)
    exact ⟨u, by simp [encEach, hrun, hrest, hwave, hcfg], hu, hucfg.trans hcfg⟩

/-- Settles O48: the Waveforms request by request in any order, and one time axis for all schemes. -/
theorem encAllGivesNineWaveforms : Obligations.EncAllGivesNineWaveforms := by
  unfold Obligations.EncAllGivesNineWaveforms
  refine ⟨fun bits s hspb hidle hfits => ?_, fun c d spb bits => ?_, fun c spb => ?_, rfl⟩
  · exact ⟨encEach_waveforms Scheme.all hspb hidle hfits, fun order => encEach_waveforms order hspb hidle hfits⟩
  · rw [timesOf_encodeWave, timesOf_encodeWave]
  · simp [encodeWave_eq_map_sampleAt]

/-! ### The parsed bytes -/

/-- The digits that a stripping parser keeps, at least one, fill at least one byte (40_value_parser.md R110, R113). -/
theorem parseStripped_length_pos {base per : Nat} {t : Text} {bytes : List Byte} (hper : 1 ≤ per)
    (h : parseStripped base per t = some bytes) : 1 ≤ bytes.length := by
  simp only [parseStripped, Option.ite_none_left_eq_some, Option.some.injEq] at h
  obtain ⟨hkept, rfl⟩ := h
  have hdigits := List.length_pos_iff.2 hkept
  rw [packDigits, List.length_map, List.length_range, padLeft_length _ _ hper, Nat.mul_div_cancel _ hper]
  exact Nat.div_pos (by omega) hper

/-- No parser answers with no byte (40_value_parser.md R117). -/
theorem parseText_length_pos {cfg : Config} {m : Mode} {t : Text} {bytes : List Byte}
    (h : parseText cfg m t = some bytes) : 1 ≤ bytes.length := by
  cases m with
  | integer =>
    simp only [parseText, parseIntText] at h
    split at h
    · cases h
    · obtain ⟨-, hbytes⟩ := Option.ite_none_left_eq_some.1 h
      rw [← Option.some.inj hbytes, bytesOfNat_length]
      exact le_max_left _ _
  | hexBytes => exact parseStripped_length_pos (by decide) h
  | binary => exact parseStripped_length_pos (by decide) h

/-! ### `RENDER` -/

/-- After an error of the parser no request but the `PARSE` is issued (44_registry_and_composites.md R204). -/
theorem render_of_err {m : Mode} {text : Text} {s t : State}
    (hparse : transact (.parse m) (Request.parse m text) s = .next t) (herr : t.err = true) :
    render m text s = .next (.invalidInput m, t) := by
  simp [render, hparse, herr]

/-- Without an error of the parser the three parts run one after another (44_registry_and_composites.md R204). -/
theorem render_of_parts {m : Mode} {text : Text} {ws : List (List Sample)} {s s1 s2 s3 : State}
    (hparse : transact (.parse m) (Request.parse m text) s = .next s1) (herr : s1.err = false)
    (hextract : transact .extract (Request.extract s1.bytesOut) s1 = .next s2)
    (henc : encAll s2.bitsOut s2 = .next (ws, s3)) : render m text s = .next (.waves ws, s3) := by
  simp [render, hparse, herr, hextract, henc]

theorem render_rejected {m : Mode} {text : Text} {s : State} (hspb : 1 ≤ s.cfg.spb) (hidle : s.st = .idle)
    (hfits : withinBound s.cfg.maxText text.length = true) (hparse : parseText s.cfg m text = none) :
    ∃ t, transact (.parse m) (Request.parse m text) s = .next t ∧ render m text s = .next (.invalidInput m, t) ∧
      t.st = .idle ∧ responseOf (.parse m) t = some (.invalidInput m) := by
  obtain ⟨t, hrun, hst, -, herr, hresp⟩ := transact_parse m hspb hidle hfits
  rw [hparse] at herr hresp
  exact ⟨t, hrun, render_of_err hrun herr, hst, hresp⟩

theorem render_accepted {m : Mode} {text : Text} {bytes : List Byte} {s : State} (hspb : 1 ≤ s.cfg.spb)
    (hidle : s.st = .idle) (htext : withinBound s.cfg.maxText text.length = true)
    (hparse : parseText s.cfg m text = some bytes)
    (hbits : withinBound s.cfg.maxBits (8 * bytes.length) = true) :
    ∃ t, render m text s = .next (.waves (Scheme.all.map fun c => encodeWave c s.cfg.spb (extractBits bytes)), t) ∧
      t.st = .idle := by
  obtain ⟨s1, hrun1, hst1, hcfg1, herr, hresp⟩ := transact_parse m hspb hidle htext
  rw [hparse] at herr hresp
  have hbytes : s1.bytesOut = bytes := by
    have hresult := (responseOf_eq_some.1 hresp).2.2
    simpa [parseResponse, herr, parsedResponse] using hresult
  obtain ⟨s2, hrun2, hst2, hcfg2, hout⟩ := transact_extract (hcfg1 ▸ hspb) hst1 (hcfg1 ▸ hbits)
  have hcfg := hcfg2.trans hcfg1
  have hfits : withinBound s2.cfg.maxBits (extractBits bytes).length = true := by
    rwa [hcfg, extractBits_length]
  obtain ⟨t, hrun3, hst, -⟩ := encEach_waveforms Scheme.all (hcfg ▸ hspb) hst2 hfits
  rw [hcfg] at hrun3
  exact ⟨t, render_of_parts hrun1 herr (hbytes ▸ hrun2) (hout ▸ hrun3), hst⟩

/-- Settles O49: the error ends the run after its `PARSE`; else the parts compose, and at least one byte gives at least one
sample. -/
theorem renderAnswers : Obligations.RenderAnswers := by
  unfold Obligations.RenderAnswers
  intro m text s hspb hidle htext
  refine ⟨render_rejected hspb hidle htext, fun bytes hparse => ?_⟩
  have hpos := parseText_length_pos hparse
  refine ⟨hpos, fun hbits => ?_⟩
  obtain ⟨t, hrun, hst⟩ := render_accepted hspb hidle htext hparse hbits
  have hlen (c : Scheme) : (encodeWave c s.cfg.spb (extractBits bytes)).length = 8 * bytes.length * s.cfg.spb := by
    rw [encodeWave_length, extractBits_length]
  refine ⟨t, hrun, hst, fun c => ⟨hlen c, List.ne_nil_of_length_pos ?_⟩⟩
  rw [hlen c]
  exact Nat.mul_pos (by omega) hspb

end Sys2Proof.Machine
end

section
/-! SUPPORT. The one exception and the refusal over capacity (60_exceptions.md R213, R227). -/

namespace Sys2Proof.Machine

/-! ### Which commands raise `InvalidInput` -/

/-- An instance after reset meets the invariant (70_reset_and_hazards.md R241). -/
theorem stateInv_resetWith {cfg : Config} (hspb : 1 ≤ cfg.spb) (host : List HostMove) :
    StateInv (State.resetWith cfg host) where
  legal := by
    have hbound (bound : Option Nat) : withinBound bound 0 = true := by cases bound <;> simp [withinBound]
    exact ⟨hspb, reservedWord_encode .parseInt, hbound _, hbound _, le_rfl, le_rfl, hspb, Nat.zero_le _, Nat.zero_le _⟩
  busy := nofun
  err := nofun
  ended := nofun
  held := ⟨.parseInt, rfl, by simp [State.resetWith], by simp [State.resetWith]⟩
  idle _ := ⟨rfl, rfl, rfl⟩

/-- No mode accepts the empty text (40_value_parser.md R106, R109, R112). -/
theorem parseText_nil (cfg : Config) (m : Mode) : parseText cfg m [] = none := by
  cases m with
  | integer => simp [parseText, parseIntText]
  | hexBytes | binary => rfl

/-- The empty text, offered after reset, raises `InvalidInput` in every mode. -/
theorem parse_raises (m : Mode) : ∃ s t : State, StateInv s ∧ exec (.parse m) s = .next t ∧ t.err = true := by
  have hfits : operandFits Config.reference (.parse m) (Request.parse m []) = true := by
    rw [operandFits, Instr.operand_parse]; rfl
  exact ⟨State.resetWith Config.reference [.request (Request.parse m [])], _, stateInv_resetWith (by decide) _,
    (exec_parse m _).trans (parse_effect.2 ⟨rfl, _, rfl, hfits, .inl ⟨parseText_nil _ m, rfl⟩⟩), rfl⟩

/-- A `PARSE` that raises the error records its own mode (60_exceptions.md R213). -/
theorem parse_errMode {m : Mode} {s t : State} (h : exec (.parse m) s = .next t) (herr : t.err = true) :
    t.errMode.toNat = m.num := by
  rw [exec_parse] at h
  obtain ⟨-, r, -, -, ⟨-, rfl⟩ | ⟨b, -, rfl⟩⟩ := parse_effect.1 h
  · cases m <;> rfl
  · simp at herr

/-- A command that is no `PARSE` clears the error at accept and does not touch it while `BUSY`. -/
theorem exec_err_of_not_parse {i : Instr} {s t : State} (hi : ∀ m, i ≠ .parse m) (h : exec i s = .next t) :
    t.err = false ∨ (s.st = .busy ∧ t.err = s.err) := by
  rcases Instr.class_cases i with ⟨m, rfl⟩ | rfl | ⟨c, rfl⟩ | rfl
  · exact absurd rfl (hi m)
  · obtain ⟨-, r, -, -, rfl⟩ | ⟨hb, -, v, -, rfl⟩ | ⟨hb, -, rfl⟩ := extract_effect h
    · exact .inl rfl
    · exact .inr ⟨hb, rfl⟩
    · exact .inr ⟨hb, rfl⟩
  · rw [exec_enc] at h
    obtain ⟨-, r, -, -, rfl⟩ | ⟨hb, -, x, -, rfl⟩ | ⟨hb, -, rfl⟩ := enc_effect h
    · exact .inl rfl
    · exact .inr ⟨hb, rfl⟩
    · exact .inr ⟨hb, rfl⟩
  · obtain ⟨-, r, -, -, rfl⟩ := schemes_effect.1 h
    exact .inl rfl

/-- Only an idle block shows an error (10_state.md R30). -/
theorem StateInv.err_of_busy {s : State} (h : StateInv s) (hb : s.st = .busy) : s.err = false := by
  by_contra herr
  obtain ⟨hidle, -⟩ := h.err (by simpa using herr)
  simp [hb] at hidle

/-- Settles O20: the empty text is rejected in every mode, with that mode's code; the other commands clear the error or keep
the cleared one of a busy block. -/
theorem invalidInputOnlyFromParse : Obligations.InvalidInputOnlyFromParse := by
  unfold Obligations.InvalidInputOnlyFromParse
  refine ⟨parse_raises, fun m s t => parse_errMode, fun i s t hi hinv h => ?_⟩
  obtain herr | ⟨hb, hkept⟩ := exec_err_of_not_parse hi h
  · exact herr
  · rw [hkept, hinv.err_of_busy hb]

/-! ### Operands over capacity -/

theorem withinBound_eq_false_iff {limit : Option Nat} {count : Nat} :
    withinBound limit count = false ↔ ∃ bound, limit = some bound ∧ bound < count := by
  cases limit <;> simp [withinBound]

/-- An operand does not fit exactly when the instance bounds its kind and it is longer (60_exceptions.md R227). -/
theorem operandFits_eq_false_iff {cfg : Config} {i : Instr} {r : Request} :
    operandFits cfg i r = false ↔ ∃ bound,
      (i.operand = .text ∧ cfg.maxText = some bound ∧ bound < r.text.length) ∨
      (i.operand = .bytes ∧ cfg.maxBits = some bound ∧ bound < 8 * r.bytes.length) ∨
      (i.operand = .bits ∧ cfg.maxBits = some bound ∧ bound < r.bits.length) := by
  unfold operandFits
  cases i.operand <;> simp [withinBound_eq_false_iff]

/-- The step of an idle block that is offered a command is that command's, whether or not its operand fits. -/
theorem step_of_offer {s : State} {r : Request} {rest : List HostMove} {i : Instr} (hspb : 1 ≤ s.cfg.spb)
    (hidle : s.st = .idle) (hoffer : s.host = .request r :: rest) (hd : decode r.word = .instr i) :
    step s = exec i s := by
  have hr : s.resetAsserted = false := by simp [State.resetAsserted, hoffer]
  have hf : s.fetch = some r.word := by simp [State.fetch, State.offered, hidle, hoffer]
  rw [step_of_fetch hspb hr hf hd, passWait_of_request hoffer]

/-- An idle block refuses an offered operand that does not fit. -/
theorem exec_of_not_fits {i : Instr} {s : State} {r : Request} (hidle : s.st = .idle) (hoffered : s.offered = some r)
    (hfits : operandFits s.cfg i r = false) : exec i s = .refused .overCapacity := by
  obtain ⟨act, hact⟩ := exec_idle i hidle
  exact hact.trans (onAccept_eq_refused.2 ⟨r, hoffered, hfits, rfl⟩)

/-- Why a step is refused: no instance, a reserved word offered to an idle block, or the command it runs refuses
(60_exceptions.md R226 to R228). -/
theorem step_refused {s : State} {ρ : Refusal} (h : step s = .refused ρ) :
    ρ = .zeroSamplesPerBit ∨ ∃ w, s.fetch = some w ∧
      ((s.st = .idle ∧ ∃ why, decode w = .reserved why ∧ ρ = .reservedWord w why) ∨
        ∃ i, decode w = .instr i ∧ exec i s.passWait = .refused ρ) := by
  unfold step at h
  by_cases h0 : s.cfg.spb = 0
  · rw [if_pos h0] at h
    exact .inl (Host.Outcome.refused.inj h).symm
  by_cases hr : s.resetAsserted = true
  · simp [h0, hr] at h
  rw [if_neg h0, if_neg hr] at h
  rcases hf : s.fetch with _ | w
  · simp [hf] at h
  refine .inr ⟨w, rfl, ?_⟩
  rcases hd : decode w with i | why
  · exact .inr ⟨i, rfl, by simpa [hf, hd] using h⟩
  · rcases hs : s.st
    · exact .inl ⟨rfl, why, rfl, by simpa [hf, hd, badWord, hs] using h.symm⟩
    · simp [hf, hd, badWord, hs] at h

/-- A step refused over capacity has a command whose offered operand does not fit. -/
theorem exists_not_fits_of_step_overCapacity {s : State} (h : step s = .refused .overCapacity) :
    ∃ i r, operandFits s.cfg i r = false := by
  obtain hρ | ⟨w, -, ⟨-, why, -, hρ⟩ | ⟨i, -, hx⟩⟩ := step_refused h
  · cases hρ
  · cases hρ
  · obtain ⟨-, r, -, hfits, -⟩ := exec_refused hx
    exact ⟨i, r, by simpa using hfits⟩

/-- Settles O55: an operand over its bound does not fit, and only one over a bound is refused so. -/
theorem overCapacityRefused : Obligations.OverCapacityRefused := by
  unfold Obligations.OverCapacityRefused
  refine ⟨fun s r rest bound i hspb hidle hoffer hd hover => ?_, fun s htext hbits h => ?_⟩
  · rw [step_of_offer hspb hidle hoffer hd]
    exact exec_of_not_fits hidle (offered_eq_some.2 ⟨rest, hoffer⟩) (operandFits_eq_false_iff.2 ⟨bound, hover⟩)
  · obtain ⟨i, r, hfits⟩ := exists_not_fits_of_step_overCapacity h
    simpa [htext, hbits] using operandFits_eq_false_iff.1 hfits

end Sys2Proof.Machine
end

section
/-! SUPPORT. The command words, and what a step is in each situation of the block (30_encoding.md, 43_sampler_step_machine.md
sections 1 and 2, 70_reset_and_hazards.md section 1). -/

namespace Sys2Proof.Machine

/-! ### Words and commands -/

/-- A word that decodes to a command is that command's (30_encoding.md R91). -/
theorem encode_of_decode {w : Byte} {i : Instr} (h : decode w = .instr i) : encode i = w := by
  have hall : ∀ w : Byte, ∀ i ∈ (decode w).toOption, encode i = w := by decide
  exact hall w i (by rw [h]; rfl)

theorem encode_injective {i j : Instr} (h : encode i = encode j) : i = j := by
  have hj := decode_encode j
  rw [← h, decode_encode i] at hj
  exact Decoded.instr.inj hj

/-- Settles O1: the rows of the opcode table one by one, and its words as all the words of commands. -/
theorem fourteenWordsDecode : Obligations.FourteenWordsDecode := by
  unfold Obligations.FourteenWordsDecode
  exact ⟨by decide, by rw [command_words]; rfl⟩

/-- Settles O2: command by command, and word by word. -/
theorem decodeEncodeAgree : Obligations.DecodeEncodeAgree := by
  unfold Obligations.DecodeEncodeAgree
  exact ⟨fun i _ => decode_encode i, fun _ _ => encode_of_decode⟩

/-! ### The situations of a step -/

theorem step_of_reset {s : State} (hspb : 1 ≤ s.cfg.spb) (hr : s.resetAsserted = true) :
    step s = .next s.takeReset := by
  simp [step, Nat.one_le_iff_ne_zero.1 hspb, hr]

theorem step_of_fetch_none {s : State} (hspb : 1 ≤ s.cfg.spb) (hr : s.resetAsserted = false) (hf : s.fetch = none) :
    step s = .next s.passWait := by
  simp [step, Nat.one_le_iff_ne_zero.1 hspb, hr, hf]

/-- Without a wait of the host nothing is used up while the block works on. -/
theorem passWait_of_not_wait {s : State} (h : ∀ rest, s.host ≠ .wait :: rest) : s.passWait = s := by
  unfold State.passWait
  split
  next rest hhost => exact absurd hhost (h rest)
  next => rfl

theorem passWait_of_wait {s : State} {rest : List HostMove} (h : s.host = .wait :: rest) :
    s.passWait = { s with host := rest } := by
  simp [State.passWait, State.takeMove, h]

theorem resetAsserted_iff {s : State} : s.resetAsserted = true ↔ ∃ rest, s.host = .reset :: rest := by
  unfold State.resetAsserted
  rcases s.host with _ | ⟨m, rest⟩
  · simp
  · cases m <;> simp

theorem not_resetAsserted {s : State} (h : ∀ rest, s.host ≠ .reset :: rest) : s.resetAsserted = false :=
  Bool.eq_false_iff.2 fun hr => (resetAsserted_iff.1 hr).elim h

/-- A busy block's step is the next step of the command in `CMD`. -/
theorem step_of_busy {s : State} {i : Instr} (hspb : 1 ≤ s.cfg.spb) (hbusy : s.st = .busy)
    (hr : s.resetAsserted = false) (hd : decode s.cmd = .instr i) : step s = exec i s.passWait :=
  step_of_fetch hspb hr (fetch_of_busy hbusy) hd

/-- Settles O4: the fetched word is the offered one or `CMD`, and a wait is the only move that a step may use up before the
command runs. -/
theorem stepRunsDecodedCommand : Obligations.StepRunsDecodedCommand := by
  unfold Obligations.StepRunsDecodedCommand
  refine ⟨fun s r rest i => step_of_offer, fun s i hspb hbusy hhost hd => ?_, fun s rest i hspb hbusy hhost hd => ?_⟩
  · have hr := not_resetAsserted fun rest => (hhost rest).1
    rw [step_of_busy hspb hbusy hr hd, passWait_of_not_wait fun rest => (hhost rest).2]
  · have hr : s.resetAsserted = false := not_resetAsserted fun rest => by simp [hhost]
    rw [step_of_busy hspb hbusy hr hd, passWait_of_wait hhost]

theorem fetch_of_idle {s : State} (h : s.st = .idle) : s.fetch = s.offered.map Request.word := by
  simp [State.fetch, h]

theorem step_of_no_move {s : State} (hspb : 1 ≤ s.cfg.spb) (hidle : s.st = .idle) (hhost : s.host = []) :
    step s = .next s := by
  have hf : s.fetch = none := by simp [fetch_of_idle hidle, State.offered, hhost]
  rw [step_of_fetch_none hspb (not_resetAsserted (by simp [hhost])) hf, passWait_of_not_wait (by simp [hhost])]

theorem step_of_wait {s : State} {rest : List HostMove} (hspb : 1 ≤ s.cfg.spb) (hidle : s.st = .idle)
    (hhost : s.host = .wait :: rest) : step s = .next { s with host := rest } := by
  have hf : s.fetch = none := by simp [fetch_of_idle hidle, State.offered, hhost]
  rw [step_of_fetch_none hspb (not_resetAsserted (by simp [hhost])) hf, passWait_of_wait hhost]

/-- Settles O5: nothing is fetched, so the step only uses up a wait. -/
theorem idleBlockDoesNothing : Obligations.IdleBlockDoesNothing := by
  unfold Obligations.IdleBlockDoesNothing
  exact ⟨fun _ => step_of_no_move, fun _ _ => step_of_wait⟩

/-! ### The state after reset -/

theorem inResetState_resetWith (cfg : Config) (host : List HostMove) : InResetState (State.resetWith cfg host) := by
  constructor <;> rfl

theorem step_of_reset_move {s : State} {rest : List HostMove} (hspb : 1 ≤ s.cfg.spb) (hhost : s.host = .reset :: rest) :
    step s = .next (State.resetWith s.cfg rest) := by
  rw [step_of_reset hspb (resetAsserted_iff.2 ⟨rest, hhost⟩), State.takeReset, hhost, List.tail_cons]

/-- Settles O6: a reset writes the whole state but the parameters and the host's later moves. -/
theorem resetLeavesTheResetState : Obligations.ResetLeavesTheResetState := by
  unfold Obligations.ResetLeavesTheResetState
  refine ⟨fun s rest hspb hhost => ?_, inResetState_resetWith _ _⟩
  exact ⟨_, step_of_reset_move hspb hhost, inResetState_resetWith _ _, rfl, rfl⟩

/-- Settles O7: construction with `SPB` at least 1 gives the state after reset. -/
theorem newInstanceIsInResetState : Obligations.NewInstanceIsInResetState := by
  unfold Obligations.NewInstanceIsInResetState
  intro cfg host hspb
  have hne : cfg.spb ≠ 0 := Nat.one_le_iff_ne_zero.1 hspb
  exact ⟨State.resetWith cfg host, by simp [construct, hne], inResetState_resetWith _ _, rfl, rfl⟩

/-- Settles O51: every instance after reset meets the invariant, the reference block among them. -/
theorem resetMeetsTheInvariant : Obligations.ResetMeetsTheInvariant := by
  unfold Obligations.ResetMeetsTheInvariant
  exact ⟨stateInv_resetWith (by decide) [], fun cfg host hspb => stateInv_resetWith hspb host⟩

end Sys2Proof.Machine
end

section
/-! SUPPORT. What each command does from accept to end: its whole next states, what it leaves unchanged, and whose response
stands after it (10_state.md sections 5 and 10). -/

namespace Sys2Proof.Machine

/-! ### Every command -/

/-- A step that leaves the block idle is the end of its command's request, with a result to take (43_sampler_step_machine.md
R188). -/
theorem exec_ends {i : Instr} {s t : State} (h : exec i s = .next t) (hidle : t.st = .idle) :
    ∃ u : State, t = u.complete i ∧ ∃ resp, resultOf i t = some resp := by
  rcases Instr.class_cases i with ⟨m, rfl⟩ | rfl | ⟨c, rfl⟩ | rfl
  · rw [exec_parse] at h
    obtain ⟨-, r, -, -, ⟨-, rfl⟩ | ⟨b, -, rfl⟩⟩ := parse_effect.1 h
    · exact ⟨_, rfl, .invalidInput m, by cases m <;> rfl⟩
    · exact ⟨_, rfl, .bytes b, by simp [parseResponse]⟩
  · obtain ⟨-, r, -, -, rfl⟩ | ⟨hb, -, v, -, rfl⟩ | ⟨-, -, rfl⟩ := extract_effect h
    · cases hidle
    · simp [hb] at hidle
    · exact ⟨_, rfl, _, resultOf_extract _⟩
  · rw [exec_enc] at h
    obtain ⟨-, r, -, -, rfl⟩ | ⟨hb, -, x, -, rfl⟩ | ⟨-, -, rfl⟩ := enc_effect h
    · cases hidle
    · simp [hb] at hidle
    · exact ⟨_, rfl, _, resultOf_enc c _⟩
  · obtain ⟨-, r, -, -, rfl⟩ := schemes_effect.1 h
    exact ⟨_, rfl, _, resultOf_schemes _⟩

/-- An accept step drops the earlier results, and the earlier response with them until its own request has ended
(10_state.md R32). -/
theorem exec_accept_drops {i : Instr} {s t : State} (hidle : s.st = .idle) (h : exec i s = .next t) :
    OnlyResult i.operand t ∧ (t.st = .busy → t.ended = none) := by
  rcases Instr.class_cases i with ⟨m, rfl⟩ | rfl | ⟨c, rfl⟩ | rfl
  · rw [exec_parse] at h
    obtain ⟨-, r, -, -, ⟨-, rfl⟩ | ⟨b, -, rfl⟩⟩ := parse_effect.1 h <;> simp
  · obtain ⟨-, r, -, -, rfl⟩ | ⟨hb, -⟩ | ⟨hb, -⟩ := extract_effect h
    · simp [Instr.operand]
    · simp [hidle] at hb
    · simp [hidle] at hb
  · rw [exec_enc] at h
    obtain ⟨-, r, -, -, rfl⟩ | ⟨hb, -⟩ | ⟨hb, -⟩ := enc_effect h
    · simp
    · simp [hidle] at hb
    · simp [hidle] at hb
  · obtain ⟨-, r, -, -, rfl⟩ := schemes_effect.1 h
    simp [Instr.operand]

theorem responseOf_of_ended_ne {i j : Instr} {s : State} (h : s.ended = some i) (hj : j ≠ i) : responseOf j s = none := by
  cases hs : s.st <;> simp [responseOf, hs, h, hj.symm]

/-- Settles O8: the end of a request sets `ended`; an accept and a reset clear it. -/
theorem responseStandsOnlyAfterItsEnd : Obligations.ResponseStandsOnlyAfterItsEnd := by
  unfold Obligations.ResponseStandsOnlyAfterItsEnd
  refine ⟨fun i s => responseOf_of_busy, fun i s t h hidle => ?_, fun i s t hidle h hbusy j => ?_,
    fun s rest hspb hhost => ?_, fun i => responseOf_of_ended_none rfl⟩
  · obtain ⟨u, rfl, resp, hresult⟩ := exec_ends h hidle
    exact ⟨⟨resp, (responseOf_complete i u).trans hresult⟩, fun j => responseOf_of_ended_ne rfl⟩
  · exact responseOf_of_ended_none ((exec_accept_drops hidle h).2 hbusy)
  · exact ⟨_, step_of_reset_move hspb hhost, fun i => responseOf_of_ended_none rfl⟩

/-- Settles O57: the completion that ends a request empties the operand sequences, and the accept the other results. -/
theorem operandReturnedAndOtherResultsDropped : Obligations.OperandReturnedAndOtherResultsDropped := by
  unfold Obligations.OperandReturnedAndOtherResultsDropped
  refine ⟨fun i s t h hidle => ?_, fun i s t hidle h => (exec_accept_drops hidle h).1⟩
  obtain ⟨u, rfl, -⟩ := exec_ends h hidle
  simp

/-- What an accept leaves, written out. -/
theorem accept_eq {i r rest s} (h : Accepts i r rest s) :
    s.accept i = { s.freshResults with host := rest, cmd := encode i, err := false } := by
  rw [← h.host_tail]; rfl

/-! ### The `PARSE` commands -/

/-- An accepted text that the mode rejects: the error entry (60_exceptions.md R215). -/
theorem exec_parse_of_rejected {m r rest s} (h : Accepts (.parse m) r rest s)
    (hparse : parseText s.cfg m r.text = none) :
    exec (.parse m) s = .next { s.freshResults.returnOperand with
      host := rest, cmd := encode (.parse m), err := true, errMode := BitVec.ofNat 2 m.num, ended := some (.parse m) } := by
  rw [exec_parse, parse_effect.2 ⟨h.idle, r, h.offered, h.fits, .inl ⟨hparse, rfl⟩⟩, accept_eq h]
  simp [State.raiseInvalidInput, State.complete, State.setErr, State.latchText, State.returnOperand, State.freshResults,
    h.idle]

/-- An accepted text that the mode reads: its bytes (40_value_parser.md R115). -/
theorem exec_parse_of_parsed {m r rest s bytes} (h : Accepts (.parse m) r rest s)
    (hparse : parseText s.cfg m r.text = some bytes) :
    exec (.parse m) s = .next { s.freshResults.returnOperand with
      host := rest, cmd := encode (.parse m), err := false, bytesOut := bytes, ended := some (.parse m) } := by
  rw [exec_parse, parse_effect.2 ⟨h.idle, r, h.offered, h.fits, .inr ⟨bytes, hparse, rfl⟩⟩, accept_eq h]
  simp [State.complete, State.clearErr, State.latchText, State.returnOperand, State.freshResults, h.idle]

/-- Settles O19: both effects of a `PARSE` are an accept, a write to the error record or to `BYTES_OUT`, and the end. -/
theorem parseFrame : Obligations.ParseFrame := by
  unfold Obligations.ParseFrame
  intro m s t h
  rw [exec_parse] at h
  obtain ⟨-, r, -, -, ⟨-, rfl⟩ | ⟨b, -, rfl⟩⟩ := parse_effect.1 h <;> simp

/-- Settles O21: the error entry, whose mode number the response reads back. -/
theorem invalidInputEntry : Obligations.InvalidInputEntry := by
  unfold Obligations.InvalidInputEntry
  intro m r rest s h hparse
  refine ⟨_, exec_parse_of_rejected h hparse, ?_, ?_⟩
  · simp [State.returnOperand, State.freshResults, h.idle]
  · rw [responseOf_eq_some]
    exact ⟨h.idle, rfl, by cases m <;> rfl⟩

/-! ### `EXTRACT` -/

theorem exec_extract_of_accepts {r rest s} (h : Accepts .extract r rest s) :
    exec .extract s = .next ((s.accept .extract).acceptExtract r) := by
  rw [exec, execExtract, h.idle]
  exact onAccept_of_accepts h

/-- After accept and `k` bit steps `k` bits are written (41_bit_extractor.md R136). -/
theorem extractAt_after {r rest s} (h : Accepts .extract r rest s) (hw : r.word = encode .extract)
    (hfree : ResetFree rest) {k : Nat} (hk : k ≤ 8 * r.bytes.length) :
    ∃ u, runSteps (k + 1) s = .next u ∧ ExtractAt s.cfg r.bytes k u := by
  have hstart := (step_of_accepts_word h hw).trans (exec_extract_of_accepts h)
  obtain ⟨u, hrun, hu⟩ := runSteps_counted (fun q t hq => ExtractAt.bit_step (hq.trans_le hk)) (Nat.zero_add k)
    (extractAt_accept h hfree)
  exact ⟨u, by rw [runSteps_succ hstart, hrun], hu⟩

/-- Settles O22: the three kinds of step as states, and the run as the bits written so far. -/
theorem extractSteps : Obligations.ExtractSteps := by
  unfold Obligations.ExtractSteps
  refine ⟨fun r rest s h => ?_, fun s v hbusy hq hv => ?_, fun s hbusy hq => extract_complete_of hbusy hq,
    fun r rest s h hw hfree => ⟨fun k hk => ?_, ?_⟩⟩
  · rw [exec_extract_of_accepts h, accept_eq h]; rfl
  · exact extract_bit_of hbusy hq hv
  · obtain ⟨u, hrun, hu⟩ := extractAt_after h hw hfree hk
    exact ⟨u, hrun, hu.busy, hu.q_eq⟩
  · obtain ⟨t, hrun, hresp, -⟩ := extract_answers hw rest s h rfl hfree
    exact ⟨t, hrun, (responseOf_eq_some.1 hresp).1⟩

/-- Settles O26: the accept, the bit and the completion step write only `EXTRACT`'s registers and sequences. -/
theorem extractFrame : Obligations.ExtractFrame := by
  unfold Obligations.ExtractFrame
  intro s t h
  obtain ⟨hs, r, -, -, rfl⟩ | ⟨hs, -, v, -, rfl⟩ | ⟨hs, -, rfl⟩ := extract_effect h <;> simp [hs]

/-! ### The `ENC` commands -/

theorem exec_enc_of_accepts {c r rest s} (h : Accepts (.enc c) r rest s) :
    exec (.enc c) s = .next ((s.accept (.enc c)).acceptEnc r) := by
  rw [exec_enc, encCommand, h.idle]
  exact onAccept_of_accepts h

/-- The word of an `ENC` command holds its SchemeId (30_encoding.md R79). -/
theorem encode_enc (c : Scheme) : encode (.enc c) = BitVec.ofNat 8 (0x20 + c.num) := by cases c <;> rfl

theorem schemeNum_eq_four_iff {c : Scheme} : c.num = 4 ↔ c = .ami := by cases c <;> simp [Scheme.num]

/-- Settles O27: the accept of an `ENC`, written out. -/
theorem encAccept : Obligations.EncAccept := by
  unfold Obligations.EncAccept
  intro c r rest s h
  rw [exec_enc_of_accepts h, accept_eq h, encode_enc]; rfl

/-- Settles O28: SchemeId 4 is AMI's, the one scheme that flips the polarity. -/
theorem encSampleStep : Obligations.EncSampleStep := by
  unfold Obligations.EncSampleStep
  intro c x s h
  rw [exec_enc, enc_sample_of h]
  simp only [polFor, schemeNum_eq_four_iff]

/-- After accept and `k` sample steps `k` samples are written (43_sampler_step_machine.md R185). -/
theorem encAt_after {c r rest s} (h : Accepts (.enc c) r rest s) (hw : r.word = encode (.enc c))
    (hfree : ResetFree rest) {k : Nat} (hk : k ≤ r.bits.length * s.cfg.spb) :
    ∃ u, runSteps (k + 1) s = .next u ∧ EncAt c s.cfg r.bits k u := by
  have hstart := (step_of_accepts_word h hw).trans (exec_enc_of_accepts h)
  obtain ⟨u, hrun, hu⟩ := runSteps_counted (fun j t hj => EncAt.sample_step (hj.trans_le hk)) (Nat.zero_add k)
    (encAt_accept h hfree)
  exact ⟨u, by rw [runSteps_succ hstart, hrun], hu⟩

/-- The whole `ENC` request answers the functional form's Waveform (43_sampler_step_machine.md R190). -/
theorem enc_run_answers {c r rest s} (h : Accepts (.enc c) r rest s) (hw : r.word = encode (.enc c))
    (hfree : ResetFree rest) :
    ∃ t, runSteps (r.bits.length * s.cfg.spb + 2) s = .next t ∧ t.st = .idle ∧ t.err = false ∧
      responseOf (.enc c) t = some (.wave (encodeWave c s.cfg.spb r.bits)) := by
  obtain ⟨t, hrun, hresp, herr⟩ := enc_answers hw rest s h rfl hfree
  have hsteps : requestSteps s.cfg (.enc c) r = r.bits.length * s.cfg.spb + 2 := by simp [requestSteps]
  exact ⟨t, hsteps ▸ hrun, (responseOf_eq_some.1 hresp).1, herr, by rw [hresp, encodeWave_eq_map_sampleAt]⟩

/-- Settles O35: the run writes sample after sample, and the samples written at the end are the functional form's. -/
theorem encRunAnswersTheWaveform : Obligations.EncRunAnswersTheWaveform := by
  unfold Obligations.EncRunAnswersTheWaveform
  refine fun c r rest s h hw hfree => ⟨fun k hk => ?_, enc_run_answers h hw hfree⟩
  obtain ⟨u, hrun, hu⟩ := encAt_after h hw hfree hk
  exact ⟨u, hrun, hu.busy, hu.k_eq⟩

/-- Settles O29: with no bit left the block completes; a running request's samples are counted by `K = N * SPB + P`; and the
empty operand is the run of length 0. -/
theorem encCompletion : Obligations.EncCompletion := by
  unfold Obligations.EncCompletion
  refine ⟨fun c s hbusy hn => ?_, fun c r rest s h hw hfree hbits => ?_, fun c s hrun hn => ?_, fun c s => ?_⟩
  · rw [exec_enc]
    exact enc_complete_of hbusy hn
  · simpa [hbits, encodeWave_eq_map_sampleAt] using enc_run_answers h hw hfree
  · rw [hrun.wave, hrun.k, hrun.atEnd hn, hn, Nat.add_zero]
  · exact (responseOf_complete (.enc c) s).trans (resultOf_enc c _)

/-- `POL` in force differs from `POL` only by AMI's flip (42_line_code_generators.md R149). -/
theorem polFor_ne {c : Scheme} {x : Bit} {p : Nat} {pol : Polarity} (h : polFor c x p pol ≠ pol) :
    (p = 0 ∧ c = .ami ∧ x = true) ∧ polFor c x p pol = pol.flip := by
  by_cases hflip : p = 0 ∧ c = .ami ∧ x = true
  · exact ⟨hflip, if_pos hflip⟩
  · exact absurd (if_neg hflip) h

theorem polFor_of_ne_ami {c : Scheme} (hc : c ≠ .ami) (x : Bit) (p : Nat) (pol : Polarity) : polFor c x p pol = pol :=
  if_neg fun h => hc h.2.1

/-- Settles O33: the one step of a busy block that writes `POL` is the sample step. -/
theorem polarityFlipsOnlyInAmi : Obligations.PolarityFlipsOnlyInAmi := by
  unfold Obligations.PolarityFlipsOnlyInAmi
  intro i s t hbusy h hne
  rcases Instr.class_cases i with ⟨m, rfl⟩ | rfl | ⟨c, rfl⟩ | rfl
  · rw [exec_parse] at h
    have hidle := (parse_effect.1 h).1
    simp [hbusy] at hidle
  · obtain ⟨hidle, -⟩ | ⟨-, -, v, -, rfl⟩ | ⟨-, -, rfl⟩ := extract_effect h
    · simp [hbusy] at hidle
    · simp at hne
    · simp at hne
  · rw [exec_enc] at h
    obtain ⟨hidle, -⟩ | ⟨-, -, x, hx, rfl⟩ | ⟨-, -, rfl⟩ := enc_effect h
    · simp [hbusy] at hidle
    · obtain ⟨⟨hp, rfl, rfl⟩, hpol⟩ := polFor_ne hne
      exact ⟨rfl, hp, hx, hpol⟩
    · simp at hne
  · have hidle := (schemes_effect.1 h).1
    simp [hbusy] at hidle

/-- Settles O34: the accept, the sample and the completion step write only the sampler's registers and sequences. -/
theorem encFrame : Obligations.EncFrame := by
  unfold Obligations.EncFrame
  intro c s t h
  rw [exec_enc] at h
  obtain ⟨hs, r, -, -, rfl⟩ | ⟨hs, -, x, -, rfl⟩ | ⟨hs, -, rfl⟩ := enc_effect h
  · simp [hs]
  · simp +contextual [hs, polFor_of_ne_ami]
  · simp [hs]

/-! ### `SCHEMES` -/

/-- Settles O46: the accept writes the registry, whose numbers are the SchemeIds of the `ENC` words. -/
theorem schemesAnswersTheRegistry : Obligations.SchemesAnswersTheRegistry := by
  unfold Obligations.SchemesAnswersTheRegistry
  refine ⟨fun r rest s h => ?_, rfl, by decide, fun c => ⟨by cases c <;> decide, ?_⟩, by decide⟩
  · have hexec : exec .schemes s = _ := schemes_effect.2 ⟨h.idle, r, h.offered, h.fits, rfl⟩
    rw [hexec, accept_eq h]
    simp only [State.complete, State.clearErr, State.returnOperand, State.freshResults, h.idle]
    rfl
  · rw [← encode_enc, decode_encode]

/-- Settles O47: `SCHEMES` is an accept, a write to `REG_OUT` and the end. -/
theorem schemesFrame : Obligations.SchemesFrame := by
  unfold Obligations.SchemesFrame
  intro s t h
  obtain ⟨-, r, -, -, rfl⟩ := schemes_effect.1 h
  simp

end Sys2Proof.Machine
end

section
/-! SUPPORT. The invariant of the machine under every step, and what it gives: progress, refusals at accept only, and the
counted end of every request (10_state.md sections 8 and 10, 43_sampler_step_machine.md sections 2 and 4). -/

namespace Sys2Proof.Machine

/-! ### What the invariant says of the running command -/

theorem StateInv.extractRunning {s : State} (h : StateInv s) (hbusy : s.st = .busy) (hcmd : s.cmd = encode .extract) :
    ExtractRunning s := by
  obtain ⟨-, hrun⟩ | ⟨c, hc, -⟩ := h.busy hbusy
  · exact hrun
  · exact absurd (hc.symm.trans hcmd) (encode_enc_ne_extract c)

theorem StateInv.encRunning {c : Scheme} {s : State} (h : StateInv s) (hbusy : s.st = .busy)
    (hcmd : s.cmd = encode (.enc c)) : EncRunning c s := by
  obtain ⟨he, -⟩ | ⟨d, hd, hrun⟩ := h.busy hbusy
  · exact absurd (hcmd.symm.trans he) (encode_enc_ne_extract c)
  · rwa [encode_enc_inj (hcmd.symm.trans hd)]

theorem StateInv.held_of_cmd {i : Instr} {s : State} (h : StateInv s) (hcmd : s.cmd = encode i) :
    OnlyOperand i.operand s ∧ OnlyResult i.operand s := by
  obtain ⟨j, hj, hheld⟩ := h.held
  rwa [encode_injective (hcmd.symm.trans hj)]

theorem StateInv.ended_of_busy {s : State} (h : StateInv s) (hbusy : s.st = .busy) : s.ended = none := by
  rcases he : s.ended with _ | i
  · rfl
  · have hidle := (h.ended i he).1
    simp [hbusy] at hidle

/-! ### Steps that keep it -/

/-- The invariant does not look at the host's moves. -/
theorem stateInv_takeMove {s : State} (h : StateInv s) : StateInv s.takeMove where
  legal := { h.legal with }
  busy hb := by
    obtain ⟨hc, hrun⟩ | ⟨c, hc, hrun⟩ := h.busy hb
    · exact .inl ⟨hc, { hrun with }⟩
    · exact .inr ⟨c, hc, { hrun with }⟩
  err := h.err
  ended := h.ended
  held := by
    obtain ⟨i, hi, hop, hres⟩ := h.held
    exact ⟨i, hi, { hop with }, { hres with }⟩
  idle hi := { h.idle hi with }

theorem stateInv_passWait {s : State} (h : StateInv s) : StateInv s.passWait := by
  unfold State.passWait
  split
  · exact stateInv_takeMove h
  · exact h

/-- A block that works on command `i` meets the invariant when its running request does and it holds no sequence of another
kind. -/
theorem stateInv_of_busy {i : Instr} {s : State} (hlegal : Legal s) (hbusy : s.st = .busy) (hcmd : s.cmd = encode i)
    (hrun : BusyWell s) (herr : s.err = false) (hended : s.ended = none) (hop : OnlyOperand i.operand s)
    (hres : OnlyResult i.operand s) : StateInv s where
  legal := hlegal
  busy _ := hrun
  err he := by simp [herr] at he
  ended _ he := by simp [hended] at he
  held := ⟨i, hcmd, hop, hres⟩
  idle hi := by simp [hbusy] at hi

/-- The end of a request of command `i` meets the invariant when only that command's result is held, an error by a `PARSE`
alone and with no bytes. -/
theorem stateInv_complete {i : Instr} {s : State} (hlegal : Legal s) (hcmd : s.cmd = encode i)
    (hres : OnlyResult i.operand s)
    (herr : s.err = true → s.bytesOut = [] ∧ ∃ m, i = .parse m ∧ s.errMode.toNat = m.num) :
    StateInv (s.complete i) where
  legal := { hlegal with }
  busy := nofun
  err he := by
    obtain ⟨hbytes, m, rfl, hmode⟩ := herr he
    exact ⟨rfl, hbytes, m, rfl, hmode⟩
  ended j hj := by
    obtain rfl : i = j := Option.some.inj hj
    exact ⟨rfl, hcmd⟩
  held := ⟨i, hcmd, ⟨fun _ => rfl, fun _ => rfl, fun _ => rfl⟩, { hres with }⟩
  idle _ := ⟨rfl, rfl, rfl⟩

theorem legal_accept {s : State} (h : Legal s) (i : Instr) : Legal (s.accept i) :=
  { h with cmd := reservedWord_encode i }

theorem operandFits_bytes {cfg : Config} {i : Instr} (hi : i.operand = .bytes) (r : Request) :
    operandFits cfg i r = withinBound cfg.maxBits (8 * r.bytes.length) := by
  simp [operandFits, hi]

theorem operandFits_bits {cfg : Config} {i : Instr} (hi : i.operand = .bits) (r : Request) :
    operandFits cfg i r = withinBound cfg.maxBits r.bits.length := by
  simp [operandFits, hi]

/-- Both ends of a `PARSE`, the bytes and the error. -/
theorem parse_keeps_inv {m : Mode} {s t : State} (h : StateInv s) (hx : exec (.parse m) s = .next t) : StateInv t := by
  rw [exec_parse] at hx
  obtain ⟨-, r, -, -, ⟨-, rfl⟩ | ⟨b, -, rfl⟩⟩ := parse_effect.1 hx
  · have hlegal := legal_accept h.legal (.parse m)
    refine stateInv_complete { hlegal with errMode := errMode_num_le m } rfl (by simp) fun _ => ⟨rfl, m, rfl, ?_⟩
    cases m <;> rfl
  · exact stateInv_complete { legal_accept h.legal (.parse m) with } rfl (by simp) nofun

/-- The accept, the bit and the completion step of `EXTRACT`. -/
theorem extract_keeps_inv {s t : State} (h : StateInv s) (hcmd : s.st = .busy → s.cmd = encode .extract)
    (hx : exec .extract s = .next t) : StateInv t := by
  obtain ⟨hidle, r, -, hfits, rfl⟩ | ⟨hbusy, hq, v, -, rfl⟩ | ⟨hbusy, -, rfl⟩ := extract_effect hx
  · obtain ⟨htext, hbytes, hbits⟩ := h.idle hidle
    refine stateInv_of_busy (i := .extract)
      { legal_accept h.legal .extract with nbytes := operandFits_bytes (i := .extract) rfl r ▸ hfits, q := Nat.zero_le _ }
      rfl rfl (.inl ⟨rfl, rfl, Nat.zero_le _, rfl⟩) rfl rfl ?_ ?_
    · simp [htext, hbits, Instr.operand]
    · simp [Instr.operand]
  · obtain ⟨hop, hres⟩ := h.held_of_cmd (hcmd hbusy)
    have hrun := h.extractRunning hbusy (hcmd hbusy)
    refine stateInv_of_busy { h.legal with q := hq } hbusy (hcmd hbusy) (.inl ⟨hcmd hbusy, extractRunning_emitBit hrun hq⟩)
      (h.err_of_busy hbusy) (h.ended_of_busy hbusy) { hop with } ?_
    exact { hres with bitsOut := fun hne => absurd rfl hne }
  · refine stateInv_complete h.legal (hcmd hbusy) (h.held_of_cmd (hcmd hbusy)).2 fun he => ?_
    simp [h.err_of_busy hbusy] at he

/-- The accept, the sample and the completion step of an `ENC`. -/
theorem enc_keeps_inv {c : Scheme} {s t : State} (h : StateInv s) (hcmd : s.st = .busy → s.cmd = encode (.enc c))
    (hx : exec (.enc c) s = .next t) : StateInv t := by
  have hspb := h.legal.spb
  rw [exec_enc] at hx
  obtain ⟨hidle, r, -, hfits, rfl⟩ | ⟨hbusy, hn, x, hbit, rfl⟩ | ⟨hbusy, -, rfl⟩ := enc_effect hx
  · obtain ⟨htext, hbytes, hbits⟩ := h.idle hidle
    refine stateInv_of_busy (i := .enc c)
      { legal_accept h.legal (.enc c) with
        nbits := operandFits_bits (Instr.operand_enc c) r ▸ hfits, n := Nat.zero_le _, p := hspb, k := Nat.zero_le _ }
      rfl rfl (.inr ⟨c, rfl, encRunning_accept hspb⟩) rfl rfl ?_ ?_
    · simp [htext, hbytes]
    · simp
  · obtain ⟨hop, hres⟩ := h.held_of_cmd (hcmd hbusy)
    have hrun := h.encRunning hbusy (hcmd hbusy)
    obtain ⟨y, hat, hnext⟩ := encRunning_sample hspb hbusy hrun hn
    obtain rfl : y = x := Option.some.inj (hat.bit.symm.trans hbit)
    refine stateInv_of_busy
      { h.legal with n := hnext.n, p := hnext.p, k := (encRunning_k_lt_iff hrun).2 hn } hbusy (hcmd hbusy)
      (.inr ⟨c, hcmd hbusy, hnext⟩) (h.err_of_busy hbusy) (h.ended_of_busy hbusy) { hop with } ?_
    exact { hres with waveOut := fun hne => absurd (Instr.operand_enc c) hne }
  · refine stateInv_complete h.legal (hcmd hbusy) (h.held_of_cmd (hcmd hbusy)).2 fun he => ?_
    simp [h.err_of_busy hbusy] at he

theorem schemes_keeps_inv {s t : State} (h : StateInv s) (hx : exec .schemes s = .next t) : StateInv t := by
  obtain ⟨-, r, -, -, rfl⟩ := schemes_effect.1 hx
  exact stateInv_complete { legal_accept h.legal .schemes with } rfl (by simp [Instr.operand]) nofun

/-- A command that the sequencer runs keeps the invariant: any command on an idle block, the one in `CMD` on a busy one. -/
theorem exec_keeps_inv {i : Instr} {s t : State} (h : StateInv s) (hcmd : s.st = .busy → s.cmd = encode i)
    (hx : exec i s = .next t) : StateInv t := by
  rcases Instr.class_cases i with ⟨m, rfl⟩ | rfl | ⟨c, rfl⟩ | rfl
  · exact parse_keeps_inv h hx
  · exact extract_keeps_inv h hcmd hx
  · exact enc_keeps_inv h hcmd hx
  · exact schemes_keeps_inv h hx

/-- Settles O52: a reset, a step with nothing to do, and each class of commands keep the invariant. -/
theorem stepKeepsTheInvariant : Obligations.StepKeepsTheInvariant := by
  unfold Obligations.StepKeepsTheInvariant
  intro s t h hstep
  obtain ⟨hspb, ⟨-, rfl⟩ | ⟨-, -, rfl⟩ | ⟨-, w, i, hf, hd, hx⟩⟩ := step_effect hstep
  · exact stateInv_resetWith hspb _
  · exact stateInv_passWait h
  · refine exec_keeps_inv (stateInv_passWait h) (fun hbusy => ?_) hx
    rw [State.passWait_st] at hbusy
    rw [fetch_of_busy hbusy] at hf
    rw [State.passWait_cmd, encode_of_decode hd, Option.some.inj hf]

/-! ### Progress -/

/-- The next step of command `i` is one bit or sample step while some are left, and the completion step after the last. -/
def CountsDown (i : Instr) (s : State) : Prop :=
  ∃ t, exec i s = .next t ∧
    ((0 < s.stepsLeft ∧ t.st = .busy ∧ t.host = s.host ∧ t.stepsLeft + 1 = s.stepsLeft) ∨
      (s.stepsLeft = 0 ∧ t.st = .idle))

theorem stepsLeft_extract {s : State} (hcmd : s.cmd = encode .extract) : s.stepsLeft = 8 * s.nbytes - s.q :=
  if_pos hcmd

theorem stepsLeft_enc {c : Scheme} {s : State} (hcmd : s.cmd = encode (.enc c)) :
    s.stepsLeft = s.nbits * s.cfg.spb - s.k :=
  if_neg fun h => encode_enc_ne_extract c (hcmd.symm.trans h)

theorem extract_countsDown {s : State} (hrun : ExtractRunning s) (hbusy : s.st = .busy) (hcmd : s.cmd = encode .extract) :
    CountsDown .extract s := by
  have hleft := stepsLeft_extract hcmd
  have hle := hrun.q
  rcases hle.lt_or_eq with hq | hq
  · have hlt : s.q / 8 < s.bytesIn.length := by have := hrun.nbytes; omega
    refine ⟨_, extract_bit_of hbusy hq (List.getElem?_eq_getElem hlt), .inl ⟨by omega, hbusy, rfl, ?_⟩⟩
    rw [stepsLeft_extract (by exact hcmd), hleft, State.emitBit_nbytes, State.emitBit_q]
    omega
  · exact ⟨_, extract_complete_of hbusy hq, .inr ⟨by omega, rfl⟩⟩

theorem enc_countsDown {c : Scheme} {s : State} (hspb : 1 ≤ s.cfg.spb) (hrun : EncRunning c s) (hbusy : s.st = .busy)
    (hcmd : s.cmd = encode (.enc c)) : CountsDown (.enc c) s := by
  have hleft := stepsLeft_enc hcmd
  rcases hrun.n.lt_or_eq with hn | hn
  · have hk := (encRunning_k_lt_iff hrun).2 hn
    obtain ⟨x, hat, -⟩ := encRunning_sample hspb hbusy hrun hn
    refine ⟨_, (exec_enc c s).trans (enc_sample_of hat), .inl ⟨by omega, hbusy, rfl, ?_⟩⟩
    rw [stepsLeft_enc (by exact hcmd), hleft, State.withSample_nbits, State.withSample_cfg, State.withSample_k]
    omega
  · have hk : ¬ s.k < s.nbits * s.cfg.spb := by rw [encRunning_k_lt_iff hrun, hn]; exact lt_irrefl _
    exact ⟨_, (exec_enc c s).trans (enc_complete_of hbusy hn), .inr ⟨by omega, rfl⟩⟩

/-- A busy block that meets the invariant works on a command whose next step is enabled. -/
theorem StateInv.countsDown {s : State} (h : StateInv s) (hbusy : s.st = .busy) :
    ∃ i, s.cmd = encode i ∧ CountsDown i s := by
  obtain ⟨hcmd, hrun⟩ | ⟨c, hcmd, hrun⟩ := h.busy hbusy
  · exact ⟨.extract, hcmd, extract_countsDown hrun hbusy hcmd⟩
  · exact ⟨.enc c, hcmd, enc_countsDown h.legal.spb hrun hbusy hcmd⟩

/-- A busy block that meets the invariant runs a command whose next step is enabled, if no reset is asserted. -/
theorem StateInv.step_busy {s : State} (h : StateInv s) (hbusy : s.st = .busy) (hr : s.resetAsserted = false) :
    ∃ i, step s = exec i s.passWait ∧ CountsDown i s.passWait := by
  obtain ⟨i, hcmd, hcount⟩ := (stateInv_passWait h).countsDown (by simpa using hbusy)
  rw [State.passWait_cmd] at hcmd
  exact ⟨i, step_of_busy h.legal.spb hbusy hr (by rw [hcmd, decode_encode]), hcount⟩

theorem StateInv.exists_step_busy {s : State} (h : StateInv s) (hbusy : s.st = .busy) : ∃ t, step s = .next t := by
  rcases hr : s.resetAsserted with _ | _
  · obtain ⟨i, hstep, t, hx, -⟩ := h.step_busy hbusy hr
    exact ⟨t, hstep.trans hx⟩
  · exact ⟨_, step_of_reset h.legal.spb hr⟩

/-- The step of an idle block: it goes on without a request, or it is that of the command, or the refusal of the reserved
word, that is offered. -/
theorem step_idle {s : State} (hspb : 1 ≤ s.cfg.spb) (hidle : s.st = .idle) :
    (∃ t, step s = .next t) ∨ ∃ r rest, s.host = .request r :: rest ∧
      ((∃ i, decode r.word = .instr i ∧ step s = exec i s) ∨
        ∃ why, decode r.word = .reserved why ∧ step s = .refused (.reservedWord r.word why)) := by
  rcases hhost : s.host with _ | ⟨r | _ | _, rest⟩
  · exact .inl ⟨_, step_of_no_move hspb hidle hhost⟩
  · refine .inr ⟨r, rest, rfl, ?_⟩
    rcases hd : decode r.word with i | why
    · exact .inl ⟨i, rfl, step_of_offer hspb hidle hhost hd⟩
    · exact .inr ⟨why, rfl, step_of_reserved hspb hidle hhost hd⟩
  · exact .inl ⟨_, step_of_wait hspb hidle hhost⟩
  · exact .inl ⟨_, step_of_reset_move hspb hhost⟩

/-- Settles O53: an idle block runs a command only when it is offered one, and a busy block's command has an enabled step. -/
theorem noStuckState : Obligations.NoStuckState := by
  unfold Obligations.NoStuckState
  intro s f h hfault
  rcases hs : s.st with _ | _
  · obtain ⟨t, hstep⟩ | ⟨r, rest, hhost, ⟨i, -, hstep⟩ | ⟨why, -, hstep⟩⟩ := step_idle h.legal.spb hs
    · simp [hstep] at hfault
    · have hnone := exec_idle_fault hs (hstep.symm.trans hfault)
      simp [State.offered, hhost] at hnone
    · simp [hstep] at hfault
  · obtain ⟨t, hstep⟩ := h.exists_step_busy hs
    simp [hstep] at hfault

/-- Settles O54: a busy block goes on, and an idle block's command is refused only for its operand. -/
theorem refusalsOnlyAtAccept : Obligations.RefusalsOnlyAtAccept := by
  unfold Obligations.RefusalsOnlyAtAccept
  intro s ρ h hrefused
  rcases hs : s.st with _ | _
  · obtain ⟨t, hstep⟩ | ⟨r, rest, hhost, ⟨i, hd, hstep⟩ | ⟨why, hd, hstep⟩⟩ := step_idle h.legal.spb hs
    · simp [hstep] at hrefused
    · obtain ⟨-, r', hoffered, hfits, rfl⟩ := exec_refused (hstep.symm.trans hrefused)
      obtain rfl : r = r' := by simpa [State.offered, hhost] using hoffered
      exact ⟨rfl, r, rest, hhost, .inr ⟨i, hd, hfits, rfl⟩⟩
    · exact ⟨rfl, r, rest, hhost, .inl ⟨why, hd, Host.Outcome.refused.inj (hrefused.symm.trans hstep)⟩⟩
  · obtain ⟨t, hstep⟩ := h.exists_step_busy hs
    simp [hstep] at hrefused

/-! ### The counted end -/

/-- A running request of which `N - k` bit or sample steps are left, with no reset to come. -/
structure Running (N k : Nat) (s : State) : Prop where
  inv       : StateInv s
  busy      : s.st = .busy
  resetFree : ResetFree s.host
  left      : k + s.stepsLeft = N

@[simp] theorem stepsLeft_passWait (s : State) : s.passWait.stepsLeft = s.stepsLeft := by simp [State.stepsLeft]

theorem Running.one_step {N k : Nat} {s : State} (hk : k < N) (h : Running N k s) :
    ∃ t, step s = .next t ∧ Running N (k + 1) t := by
  have hleft := h.left
  obtain ⟨i, hstep, t, hx, ⟨-, hbusy, hhost, hcount⟩ | ⟨hzero, -⟩⟩ :=
    h.inv.step_busy h.busy (not_resetAsserted_of_resetFree h.resetFree)
  · have hnext := hstep.trans hx
    rw [stepsLeft_passWait] at hcount
    exact ⟨t, hnext, stepKeepsTheInvariant s t h.inv hnext, hbusy, hhost ▸ resetFree_passWait h.resetFree, by omega⟩
  · rw [stepsLeft_passWait] at hzero
    omega

theorem Running.complete {N : Nat} {s : State} (h : Running N N s) : ∃ t, step s = .next t ∧ t.st = .idle := by
  have hleft := h.left
  obtain ⟨i, hstep, t, hx, ⟨hpos, -⟩ | ⟨-, hidle⟩⟩ := h.inv.step_busy h.busy (not_resetAsserted_of_resetFree h.resetFree)
  · rw [stepsLeft_passWait] at hpos
    omega
  · exact ⟨t, hstep.trans hx, hidle⟩

/-- Settles O56: every step counts the steps left down by one, and with none left the block completes. -/
theorem busyEndsInCountedSteps : Obligations.BusyEndsInCountedSteps := by
  unfold Obligations.BusyEndsInCountedSteps
  intro s h hbusy hfree
  have hrun (j : Nat) (hj : j ≤ s.stepsLeft) : ∃ u, runSteps j s = .next u ∧ Running s.stepsLeft j u :=
    runSteps_counted (fun k t hk => Running.one_step (hk.trans_le hj)) (Nat.zero_add j) ⟨h, hbusy, hfree, Nat.zero_add _⟩
  refine ⟨fun j hj => ?_, ?_⟩
  · obtain ⟨u, hu, hrunning⟩ := hrun j hj
    exact ⟨u, hu, hrunning.busy⟩
  · obtain ⟨u, hu, hrunning⟩ := hrun _ le_rfl
    obtain ⟨t, hlast, hidle⟩ := hrunning.complete
    exact ⟨t, by rw [runSteps_add hu, runSteps_succ hlast, runSteps_zero], hidle⟩

end Sys2Proof.Machine
end

section
/-! SUPPORT. The answers of the three `PARSE` commands for every text, and `INT_EXT` (40_value_parser.md sections 2 to 5). -/

namespace Sys2Proof.Machine

/-- Settles O18: no parser answers with no byte. -/
theorem parsedBytesNeverEmpty : Obligations.ParsedBytesNeverEmpty := by
  unfold Obligations.ParsedBytesNeverEmpty
  exact fun _ _ _ _ => parseText_length_pos

/-! ### Integer mode -/

theorem intLiteral_eq_none_iff {t : Text} : intLiteral? t = none ↔ ∀ u, ¬ GInt t u := by
  simp only [Option.eq_none_iff_forall_ne_some, ne_eq, intLiteral_eq_some]

/-- Integer mode gives a text its value: that of the literal it is, or outside the grammar that of `INT_EXT`
(40_value_parser.md R101, R106). -/
def IntValue (cfg : Config) (t : Text) (v : Int) : Prop :=
  GInt t v ∨ ((∀ u, ¬ GInt t u) ∧ intExt? cfg t = some v)

theorem parseText_of_intValue {cfg : Config} {t : Text} {v : Int} (h : IntValue cfg t v) :
    parseText cfg .integer t = if v < 0 then none else some (bytesOfNat v.toNat) := by
  obtain hlit | ⟨hout, hext⟩ := h
  · simp [parseText, parseIntText, (intLiteral_eq_some t v).2 hlit]
  · simp [parseText, parseIntText, intLiteral_eq_none_iff.2 hout, hext]

theorem parseText_of_no_intValue {cfg : Config} {t : Text} (hout : ∀ u, ¬ GInt t u) (hext : intExt? cfg t = none) :
    parseText cfg .integer t = none := by
  simp [parseText, parseIntText, intLiteral_eq_none_iff.2 hout, hext]

/-- Settles O11: the text's value decides between the bytes and the error. -/
theorem parseIntAnswers : Obligations.ParseIntAnswers := by
  unfold Obligations.ParseIntAnswers
  intro r rest s h
  have hrejected := exec_parse_of_rejected (m := .integer) h
  refine ⟨fun v hv hpos => ?_, fun v hv hneg => ?_, fun hout hext => ?_⟩
  · have hparse : parseText s.cfg .integer r.text = some (bytesOfNat v.toNat) := by
      rw [parseText_of_intValue hv, if_neg (not_lt.2 hpos)]
    exact ⟨_, exec_parse_of_parsed (m := .integer) h hparse, bytesOfNat_length _, bytesOfNat_getElem _⟩
  · exact hrejected (by rw [parseText_of_intValue hv, if_pos hneg])
  · exact hrejected (parseText_of_no_intValue hout hext)

/-! ### The characters of a literal -/

/-- The characters of integer literals: hexadecimal digits, the sign, and the letters of `0x` and `0o` (those of `0b` are
digits too). -/
def isLiteralChar (c : Char) : Bool := (hexVal? c).isSome || decide (c ∈ ['-', 'x', 'X', 'o', 'O'])

theorem isLiteralChar_of_isDigit {b : Nat} {c : Char} {v : Nat} (h : IsDigit b c v) : isLiteralChar c = true := by
  simp [isLiteralChar, (hexVal_eq_some c v).2 (isDigit_iff_lt_and_hex.1 h).2]

theorem isLiteralChar_of_digits {b : Nat} {t : Text} {v : Nat} (h : Digits b t v) : ∀ c ∈ t, isLiteralChar c = true := by
  induction h with
  | one hd => simpa using isLiteralChar_of_isDigit hd
  | snoc _ hd ih =>
    intro c hc
    obtain hc | hc := List.mem_append.1 hc
    · exact ih c hc
    · rw [List.mem_singleton.1 hc]
      exact isLiteralChar_of_isDigit hd

theorem isLiteralChar_of_magnitude {t : Text} {v : Nat} (h : Magnitude t v) : ∀ c ∈ t, isLiteralChar c = true := by
  cases h with
  | zero =>
    rw [List.forall_mem_singleton]
    decide
  | decimal _ hd => exact isLiteralChar_of_digits hd
  | hexlit hl hd | octlit hl hd | binlit hl hd =>
    rw [List.forall_mem_cons, List.forall_mem_cons]
    refine ⟨by decide, ?_, isLiteralChar_of_digits hd⟩
    obtain rfl | rfl := hl <;> decide

theorem isLiteralChar_of_gInt {t : Text} {v : Int} (h : GInt t v) : ∀ c ∈ t, isLiteralChar c = true := by
  cases h with
  | unsigned hm => exact isLiteralChar_of_magnitude hm
  | signed hm =>
    rw [List.forall_mem_cons]
    exact ⟨by decide, isLiteralChar_of_magnitude hm⟩

/-- A text with any other character is outside the grammar. -/
theorem not_gInt_of_mem {t : Text} {c : Char} (hc : isLiteralChar c = false) (hmem : c ∈ t) (u : Int) : ¬ GInt t u :=
  fun h => by simp [isLiteralChar_of_gInt h c hmem] at hc

theorem magnitude_not_mem {t : Text} {v : Nat} (h : Magnitude t v) {c : Char} (hc : isLiteralChar c = false) : c ∉ t :=
  fun hmem => by simp [isLiteralChar_of_magnitude h c hmem] at hc

theorem magnitude_ne_nil {t : Text} {v : Nat} (h : Magnitude t v) : t ≠ [] := by cases h <;> simp

/-! ### Relaxed settings -/

/-- The reference parameters with the relaxation `r` as the setting of `INT_EXT`. -/
abbrev Config.relaxedBy (r : Relaxation) : Config := { Config.reference with intExt := .relaxed r }

theorem intExt_relaxedBy (r : Relaxation) (t : Text) :
    intExt? (Config.relaxedBy r) t = if t = [] then none else intLiteral? (relaxedText r t) := rfl

/-- What a relaxation leaves of a text outside the grammar is read by the grammar (40_value_parser.md R106). -/
theorem parseText_relaxed_of_magnitude {r : Relaxation} {t : Text} {v : Nat} (hout : ∀ u, ¬ GInt t u) (hne : t ≠ [])
    (h : Magnitude (relaxedText r t) v) : parseText (Config.relaxedBy r) .integer t = some (bytesOfNat v) := by
  have hext : intExt? (Config.relaxedBy r) t = some (v : Int) := by
    rw [intExt_relaxedBy, if_neg hne]
    exact (intLiteral_eq_some _ _).2 (.unsigned h)
  rw [parseText_of_intValue (.inr ⟨hout, hext⟩), if_neg (by omega), Int.toNat_natCast]

theorem parseText_relaxed_eq_none {r : Relaxation} {t : Text} (hout : ∀ u, ¬ GInt t u)
    (h : ∀ u, ¬ GInt (relaxedText r t) u) : parseText (Config.relaxedBy r) .integer t = none := by
  refine parseText_of_no_intValue hout ?_
  rw [intExt_relaxedBy, intLiteral_eq_none_iff.2 h, ite_self]

theorem dropPlus_of_plus {t : Text} {v : Nat} (h : Magnitude t v) (around separators : List Char) :
    dropPlus ⟨true, around, separators⟩ ('+' :: t) = t := by
  have hsign : t.head? ≠ some '-' := by
    intro hhead
    obtain ⟨rest, rfl⟩ := List.head?_eq_some_iff.1 hhead
    exact not_magnitude_minus _ _ h
  simp [dropPlus, hsign]

/-- Trimming takes away exactly the characters around a text that holds none of them. -/
theorem trimText_append {r : Relaxation} {pre t post : Text} (hpre : ∀ c ∈ pre, c ∈ r.around)
    (hpost : ∀ c ∈ post, c ∈ r.around) (ht : ∀ c ∈ t, c ∉ r.around) (hne : t ≠ []) :
    trimText r (pre ++ t ++ post) = t := by
  have hdrop {l m : Text} (hl : ∀ c ∈ l, c ∈ r.around) (hm : ∀ c ∈ m.head?, c ∉ r.around) :
      (l ++ m).dropWhile (fun c => decide (c ∈ r.around)) = m := by
    rw [List.dropWhile_append_of_pos (by simpa using hl)]
    cases m with
    | nil => rfl
    | cons c m => exact List.dropWhile_cons_of_neg (by simpa using hm)
  have hhead {m l : Text} (hm : m ≠ []) (hall : ∀ c ∈ m, c ∉ r.around) : ∀ c ∈ (m ++ l).head?, c ∉ r.around := by
    obtain ⟨c, m, rfl⟩ := List.exists_cons_of_ne_nil hm
    simpa using hall c (by simp)
  rw [trimText, List.append_assoc, hdrop hpre (hhead hne ht), List.reverse_append, hdrop (by simpa using hpost),
    List.reverse_reverse]
  simpa using hhead (l := []) (List.reverse_ne_nil_iff.2 hne) (by simpa using ht)

/-! ### Separators -/

/-- Is there a digit before what follows `pre`? `afterDigit` says so of `pre` itself. -/
def endsWithDigit (afterDigit : Bool) (pre : Text) : Bool := (pre.getLast?.map fun c => (hexVal? c).isSome).getD afterDigit

theorem endsWithDigit_cons (afterDigit : Bool) (c : Char) (pre : Text) :
    endsWithDigit afterDigit (c :: pre) = endsWithDigit (hexVal? c).isSome pre := by
  cases pre with
  | nil => rfl
  | cons d pre => simp [endsWithDigit, List.getLast?_cons]

/-- A text without separators is passed over. -/
theorem dropSeparators_append {r : Relaxation} {pre : Text} (h : ∀ c ∈ pre, c ∉ r.separators) (afterDigit : Bool)
    (t : Text) : dropSeparators r afterDigit (pre ++ t) = pre ++ dropSeparators r (endsWithDigit afterDigit pre) t := by
  induction pre generalizing afterDigit with
  | nil => rfl
  | cons c pre ih =>
    obtain ⟨hc, hpre⟩ := List.forall_mem_cons.1 h
    simp [dropSeparators, hc, ih hpre, endsWithDigit_cons]

/-- A separator without a digit on one of its sides stays. -/
theorem mem_dropSeparators (r : Relaxation) {sep : Char} {pre post : Text} {afterDigit : Bool}
    (h : startsWithDigit post = true → endsWithDigit afterDigit pre = false) :
    sep ∈ dropSeparators r afterDigit (pre ++ sep :: post) := by
  induction pre generalizing afterDigit with
  | nil =>
    have hkept : ¬ (sep ∈ r.separators ∧ afterDigit = true ∧ startsWithDigit post = true) := by
      rintro ⟨-, hbefore, hafter⟩
      have hnot : afterDigit = false := h hafter
      simp [hbefore] at hnot
    rw [List.nil_append, dropSeparators, if_neg hkept]
    exact List.mem_cons_self
  | cons c pre ih =>
    rw [List.cons_append, dropSeparators]
    split
    · refine ih fun hafter => ?_
      have hends := h hafter
      cases pre with
      | nil => rfl
      | cons d pre => rwa [endsWithDigit_cons, endsWithDigit_cons, ← endsWithDigit_cons false] at hends
    · exact List.mem_cons_of_mem _ (ih fun hafter => by rw [← endsWithDigit_cons afterDigit, h hafter])

theorem hexVal_isSome_of_isDigit {c : Char} {v : Nat} (h : IsDigit 16 c v) : (hexVal? c).isSome = true := by
  simp [(hexVal_eq_some c v).2 h]

theorem hexVal_isSome_eq_false {c : Char} (h : ∀ v, ¬ IsDigit 16 c v) : (hexVal? c).isSome = false := by
  simpa [Option.eq_none_iff_forall_ne_some, hexVal_eq_some] using h

/-- A separator between two digits is taken away; what is around holds none. -/
theorem dropSeparators_between {r : Relaxation} {sep a b : Char} {pre post : Text} {u w : Nat} (hsep : sep ∈ r.separators)
    (ha : IsDigit 16 a u) (hb : IsDigit 16 b w) (hnone : ∀ c ∈ pre ++ [a, b] ++ post, c ∉ r.separators) :
    dropSeparators r false (pre ++ [a, sep, b] ++ post) = pre ++ [a, b] ++ post := by
  have hbefore : endsWithDigit false (pre ++ [a]) = true := by
    simpa [endsWithDigit] using hexVal_isSome_of_isDigit ha
  have hafter : startsWithDigit (b :: post) = true := by simpa [startsWithDigit] using hexVal_isSome_of_isDigit hb
  calc dropSeparators r false (pre ++ [a, sep, b] ++ post)
      = dropSeparators r false ((pre ++ [a]) ++ sep :: b :: post) := by simp
    _ = (pre ++ [a]) ++ dropSeparators r true (sep :: b :: post) := by
        rw [dropSeparators_append (fun c hc => hnone c (by simp at hc ⊢; tauto)), hbefore]
    _ = (pre ++ [a]) ++ dropSeparators r false (b :: post) := by rw [dropSeparators, if_pos ⟨hsep, rfl, hafter⟩]
    _ = pre ++ [a, b] ++ post := by
        rw [dropSeparators_of_none r false _ fun c hc => hnone c (by simp at hc ⊢; tauto)]; simp

/-! ### `INT_EXT` -/

/-- A `+` sign in front of a literal. -/
theorem parseText_plus {t : Text} {v : Nat} (h : Magnitude t v) :
    parseText (Config.relaxedBy ⟨true, [], []⟩) .integer ('+' :: t) = some (bytesOfNat v) := by
  have hout := not_gInt_of_mem (t := '+' :: t) (c := '+') (by decide) (by simp)
  exact parseText_relaxed_of_magnitude hout (by simp) (by simpa [relaxedText, dropPlus_of_plus h] using h)

/-- Spaces around a literal; with none the text is the literal itself. -/
theorem parseText_spaces {pre post t : Text} {v : Nat} (h : Magnitude t v) (hpre : ∀ c ∈ pre, c = ' ')
    (hpost : ∀ c ∈ post, c = ' ') :
    parseText (Config.relaxedBy ⟨false, [' '], []⟩) .integer (pre ++ t ++ post) = some (bytesOfNat v) := by
  have hspace : isLiteralChar ' ' = false := by decide
  have htrim : relaxedText ⟨false, [' '], []⟩ (pre ++ t ++ post) = t := by
    have hnone : ∀ c ∈ t, c ∉ [' '] := fun c hc => by
      rw [List.mem_singleton]
      rintro rfl
      exact magnitude_not_mem h hspace hc
    rw [relaxedText, trimText_append (by simpa using hpre) (by simpa using hpost) hnone (magnitude_ne_nil h)]
    simp
  by_cases hmem : ' ' ∈ pre ++ t ++ post
  · exact parseText_relaxed_of_magnitude (not_gInt_of_mem hspace hmem) (List.ne_nil_of_mem hmem) (by rwa [htrim])
  · have hnil {l : Text} (hl : ∀ c ∈ l, c = ' ') (hnot : ' ' ∉ l) : l = [] :=
      List.eq_nil_iff_forall_not_mem.2 fun c hc => hnot (hl c hc ▸ hc)
    obtain rfl : pre = [] := hnil hpre fun hc => hmem (by simp [hc])
    obtain rfl : post = [] := hnil hpost fun hc => hmem (by simp [hc])
    simpa using parseText_of_gInt (.unsigned h) (Config.relaxedBy ⟨false, [' '], []⟩)

/-- A separator between two digits of a literal. -/
theorem parseText_separator {pre post : Text} {a b : Char} {u w v : Nat} (ha : IsDigit 16 a u) (hb : IsDigit 16 b w)
    (h : Magnitude (pre ++ [a, b] ++ post) v) :
    parseText (Config.relaxedBy ⟨false, [], ['_']⟩) .integer (pre ++ [a, '_', b] ++ post) = some (bytesOfNat v) := by
  have hunderscore : isLiteralChar '_' = false := by decide
  have hmem : '_' ∈ pre ++ [a, '_', b] ++ post := by simp
  have hnone : ∀ c ∈ pre ++ [a, b] ++ post, c ∉ ['_'] := fun c hc => by
    rw [List.mem_singleton]
    rintro rfl
    exact magnitude_not_mem h hunderscore hc
  have hleft : relaxedText ⟨false, [], ['_']⟩ (pre ++ [a, '_', b] ++ post) = pre ++ [a, b] ++ post := by
    rw [relaxedText, trimText_nothing, dropPlus_nothing]
    exact dropSeparators_between (List.mem_singleton_self _) ha hb hnone
  exact parseText_relaxed_of_magnitude (not_gInt_of_mem hunderscore hmem) (List.ne_nil_of_mem hmem) (by rwa [hleft])

/-- A separator that no digit stands before, or that none stands after, leaves the text invalid. -/
theorem parseText_loose_separator {pre post : Text}
    (h : (∀ d u, pre.getLast? = some d → ¬ IsDigit 16 d u) ∨ (∀ d u, post.head? = some d → ¬ IsDigit 16 d u)) :
    parseText (Config.relaxedBy ⟨false, [], ['_']⟩) .integer (pre ++ '_' :: post) = none := by
  have hunderscore : isLiteralChar '_' = false := by decide
  have hside : startsWithDigit post = true → endsWithDigit false pre = false := by
    intro hafter
    obtain hbefore | hnext := h
    · rcases hlast : pre.getLast? with _ | d
      · simp [endsWithDigit, hlast]
      · simpa [endsWithDigit, hlast] using hexVal_isSome_eq_false fun u => hbefore d u hlast
    · rcases hhead : post.head? with _ | d
      · simp [startsWithDigit, hhead] at hafter
      · have hno := hexVal_isSome_eq_false fun u => hnext d u hhead
        simp [startsWithDigit, hhead, hno] at hafter
  refine parseText_relaxed_eq_none (not_gInt_of_mem hunderscore (by simp)) (not_gInt_of_mem hunderscore ?_)
  rw [relaxedText, trimText_nothing, dropPlus_nothing]
  exact mem_dropSeparators _ hside

/-- Settles O12: a literal never asks `INT_EXT`; outside the grammar its value is the text's; and the settings that the rule
names, one lemma each. -/
theorem intExtOutsideTheGrammar : Obligations.IntExtOutsideTheGrammar := by
  unfold Obligations.IntExtOutsideTheGrammar
  refine ⟨fun cfg => parseText_nil cfg .integer, fun cfg cfg' t v h => ?_, fun cfg t hout => ?_, fun t hout => ?_,
    fun setting t hne => ?_, fun t v => parseText_plus, fun pre post t v => parseText_spaces,
    fun pre a b post u w v => parseText_separator, fun pre post => parseText_loose_separator⟩
  · rw [parseText_of_intValue (.inl h), parseText_of_intValue (.inl h)]
  · rcases hext : intExt? cfg t with _ | v
    · exact parseText_of_no_intValue hout hext
    · exact parseText_of_intValue (.inr ⟨hout, hext⟩)
  · exact parseText_of_no_intValue hout (by simp [intExt?, Config.reference])
  · rw [intExt?, if_neg hne]

/-! ### The stripping modes -/

/-- A stripping parser's answer is a function of the digits kept. -/
theorem parseStripped_of_kept {base per : Nat} {keep : List Char} {t : Text} {ds : List Nat}
    (hkeep : ∀ c, c ∈ keep ↔ ∃ v, digitVal? base c = some v) (h : KeptDigits base keep t ds) :
    parseStripped base per t = if ds = [] then none else some (packDigits base per (padLeft per ds)) := by
  simp [parseStripped, filterMap_of_keptDigits base keep hkeep t ds h]

theorem packDigits_padLeft_length {base per : Nat} (hper : 1 ≤ per) (ds : List Nat) :
    (packDigits base per (padLeft per ds)).length = (ds.length + per - 1) / per := by
  rw [packDigits, List.length_map, List.length_range, padLeft_length _ _ hper, Nat.mul_div_cancel _ hper]

theorem padLeft_lt {base per : Nat} (hbase : 0 < base) {ds : List Nat} (h : ∀ d ∈ ds, d < base) :
    ∀ d ∈ padLeft per ds, d < base := by
  intro d hd
  obtain hd | hd := List.mem_append.1 hd
  · rwa [List.eq_of_mem_replicate hd]
  · exact h d hd

/-- Byte `j` has the value of group `j`, where `per` digits make one byte (20_memory.md R54, R55). -/
theorem packDigits_getElem {base per : Nat} (hbase : 0 < base) (hbyte : base ^ per = 256) {ds : List Nat}
    (h : ∀ d ∈ ds, d < base) (j : Nat) (hj : j < (packDigits base per ds).length) :
    ((packDigits base per ds)[j]).toNat = valBase base ((ds.drop (per * j)).take per) := by
  have hlt : valBase base ((ds.drop (per * j)).take per) < 256 :=
    calc valBase base ((ds.drop (per * j)).take per)
        < base ^ ((ds.drop (per * j)).take per).length :=
          valBase_lt base _ fun d hd => h d (List.mem_of_mem_drop (List.mem_of_mem_take hd))
      _ ≤ base ^ per := Nat.pow_le_pow_right hbase (List.length_take_le _ _)
      _ = 256 := hbyte
  simpa [packDigits] using hlt

/-- An odd count of digits gets one 0 in front (40_value_parser.md R110). -/
theorem padLeft_two (ds : List Nat) : padLeft 2 ds = if ds.length % 2 = 1 then 0 :: ds else ds := by
  by_cases hodd : ds.length % 2 = 1
  · have hpad : (ds.length + 2 - 1) / 2 * 2 - ds.length = 1 := by omega
    rw [padLeft, hpad, if_pos hodd]
    rfl
  · have hpad : (ds.length + 2 - 1) / 2 * 2 - ds.length = 0 := by omega
    rw [padLeft, hpad, if_neg hodd]
    rfl

/-- A group of two digits. -/
theorem valBase_drop_take_two {base i : Nat} {l : List Nat} (h : i + 1 < l.length) :
    ∃ hi lo, l[i]? = some hi ∧ l[i + 1]? = some lo ∧ valBase base ((l.drop i).take 2) = hi * base + lo := by
  refine ⟨_, _, List.getElem?_eq_getElem (by omega), List.getElem?_eq_getElem h, ?_⟩
  rw [List.drop_eq_getElem_cons (by omega), List.drop_eq_getElem_cons h, List.take_succ_cons, List.take_succ_cons,
    List.take_zero]
  simp [valBase]

/-- Settles O16: the kept digits, padded to pairs, each pair one byte. -/
theorem parseHexAnswers : Obligations.ParseHexAnswers := by
  unfold Obligations.ParseHexAnswers
  intro r rest s ds h hkept
  have hparse : parseText s.cfg .hexBytes r.text = _ := parseStripped_of_kept (per := 2) mem_hexChars_iff hkept
  refine ⟨fun hnil => exec_parse_of_rejected (m := .hexBytes) h (by rw [hparse, if_pos hnil]), fun hne => ?_⟩
  rw [if_neg hne] at hparse
  have hlen : (packDigits 16 2 (padLeft 2 ds)).length = (ds.length + 1) / 2 := packDigits_padLeft_length (by decide) ds
  refine ⟨_, exec_parse_of_parsed (m := .hexBytes) h hparse, hlen, fun j hj => ?_⟩
  have hbyte := packDigits_getElem (by decide) (by decide) (padLeft_lt (by decide) (keptDigits_lt hkept)) j hj
  have hpair : 2 * j + 1 < (padLeft 2 ds).length := by
    rw [padLeft_length _ _ (by decide)]
    omega
  obtain ⟨hi, lo, hhi, hlo, hval⟩ := valBase_drop_take_two (base := 16) hpair
  rw [← padLeft_two]
  exact ⟨hi, lo, hhi, hlo, by rw [hbyte, hval, Nat.mul_comm]⟩

/-- Settles O17: the kept digits, padded to groups of eight, each group one byte. -/
theorem parseBinAnswers : Obligations.ParseBinAnswers := by
  unfold Obligations.ParseBinAnswers
  intro r rest s ds h hkept
  have hparse : parseText s.cfg .binary r.text = _ := parseStripped_of_kept (per := 8) mem_binChars_iff hkept
  refine ⟨fun hnil => exec_parse_of_rejected (m := .binary) h (by rw [hparse, if_pos hnil]), fun hne => ?_⟩
  rw [if_neg hne] at hparse
  exact ⟨_, exec_parse_of_parsed (m := .binary) h hparse, packDigits_padLeft_length (by decide) ds,
    packDigits_getElem (by decide) (by decide) (padLeft_lt (by decide) (keptDigits_lt hkept))⟩

end Sys2Proof.Machine
end

section
/-! SUPPORT. The host's expansions over a bound (44_registry_and_composites.md section 2), and bytes from their bits
(41_bit_extractor.md section 1). -/

namespace Sys2Proof.Machine

/-! ### Composites over capacity -/

theorem step_of_not_fits {i : Instr} {r : Request} {rest : List HostMove} {s : State} (hspb : 1 ≤ s.cfg.spb)
    (hidle : s.st = .idle) (hoffer : s.host = .request r :: rest) (hw : r.word = encode i)
    (hfits : operandFits s.cfg i r = false) : step s = .refused .overCapacity := by
  rw [step_of_offer hspb hidle hoffer (by rw [hw, decode_encode])]
  exact exec_of_not_fits hidle (offered_eq_some.2 ⟨rest, hoffer⟩) hfits

/-- A request whose operand does not fit is refused at its first step. -/
theorem transact_of_not_fits {i : Instr} {r : Request} {s : State} (hspb : 1 ≤ s.cfg.spb) (hidle : s.st = .idle)
    (hw : r.word = encode i) (hfits : operandFits s.cfg i r = false) : transact i r s = .refused .overCapacity := by
  have hstep := step_of_not_fits (s := { s with host := [.request r] }) hspb hidle rfl hw hfits
  obtain ⟨k, hk⟩ : ∃ k, requestSteps s.cfg i r = k + 1 := by
    unfold requestSteps
    cases i.operand <;> exact ⟨_, rfl⟩
  simp [transact, hk, runSteps, hstep]

theorem transact_parse_bytes {m : Mode} {text : Text} {bytes : List Byte} {s : State} (hspb : 1 ≤ s.cfg.spb)
    (hidle : s.st = .idle) (hfits : withinBound s.cfg.maxText text.length = true)
    (hparse : parseText s.cfg m text = some bytes) :
    ∃ t, transact (.parse m) (Request.parse m text) s = .next t ∧ t.st = .idle ∧ t.cfg = s.cfg ∧ t.err = false ∧
      t.bytesOut = bytes := by
  obtain ⟨t, hrun, hst, hcfg, herr, hresp⟩ := transact_parse m hspb hidle hfits
  rw [hparse] at herr hresp
  have hresult := (responseOf_eq_some.1 hresp).2.2
  exact ⟨t, hrun, hst, hcfg, herr, by simpa [parseResponse, herr, parsedResponse] using hresult⟩

/-- Settles O50: the first request over its bound is refused: the `PARSE`, the `EXTRACT`, or the first `ENC`. -/
theorem compositesRefusedOverCapacity : Obligations.CompositesRefusedOverCapacity := by
  unfold Obligations.CompositesRefusedOverCapacity
  intro s hspb hidle
  refine ⟨fun m text hover => ?_, fun m text bytes hfits hparse hover => ?_, fun bits hover => ?_⟩
  · have hrefused := transact_of_not_fits (i := .parse m) (r := Request.parse m text) hspb hidle rfl
      (by rwa [operandFits, Instr.operand_parse])
    simp [render, hrefused]
  · obtain ⟨t, hrun, hst, hcfg, herr, rfl⟩ := transact_parse_bytes hspb hidle hfits hparse
    have hrefused := transact_of_not_fits (i := .extract) (r := Request.extract t.bytesOut) (hcfg ▸ hspb) hst rfl
      (by rw [hcfg, operandFits_bytes rfl]; exact hover)
    simp [render, hrun, herr, hrefused]
  · have hrefused := transact_of_not_fits (i := .enc .nrzu) (r := Request.enc .nrzu bits) hspb hidle rfl
      (by rw [operandFits_bits rfl]; exact hover)
    simp [encAll, Scheme.all, encEach, hrefused]

/-! ### Bytes from bits -/

/-- Bits `8 * j` to `8 * j + 7` are those of byte `j`. -/
theorem extractBits_chunk {b : List Byte} {j : Nat} (h : j < b.length) :
    ((extractBits b).drop (8 * j)).take 8 = (List.range 8).map (bitOfByte b[j]) := by
  refine List.ext_getElem? fun i => ?_
  rcases Nat.lt_or_ge i 8 with hi | hi
  · rw [List.getElem?_take_of_lt hi, List.getElem?_drop, extractBits_getElem? b j i hi, List.getElem?_eq_getElem h,
      List.getElem?_map, List.getElem?_range hi]
    rfl
  · rw [List.getElem?_eq_none (by simp; omega), List.getElem?_eq_none (by simpa using hi)]

theorem valBits_extractBits_chunk (b : List Byte) (j : Nat) (h : j < b.length) :
    valBits (((extractBits b).drop (8 * j)).take 8) = (b[j]).toNat := by
  rw [extractBits_chunk h, valBits_of_byte]

theorem extractBits_injective {a b : List Byte} (h : extractBits a = extractBits b) : a = b := by
  have hlen : a.length = b.length := by
    have := congrArg List.length h
    rw [extractBits_length, extractBits_length] at this
    omega
  refine List.ext_getElem hlen fun j ha hb => BitVec.eq_of_toNat_eq ?_
  rw [← valBits_extractBits_chunk a j ha, ← valBits_extractBits_chunk b j hb, h]

/-- Settles O24: eight bits have the value of their byte, so equal bits come from equal bytes. -/
theorem bytesRecoverableFromBits : Obligations.BytesRecoverableFromBits := by
  unfold Obligations.BytesRecoverableFromBits
  exact ⟨valBits_extractBits_chunk, fun _ _ => extractBits_injective⟩

end Sys2Proof.Machine
end

section
/-! SUPPORT. The levels of the nine lanes: sample by sample, lane against lane, and over a concatenation
(42_line_code_generators.md). -/

namespace Sys2Proof.Machine

/-! ### Sample by sample -/

/-- Settles O36: the sample at an index is the level there, stamped with the index. -/
theorem waveformSampleBySample : Obligations.WaveformSampleBySample := by
  unfold Obligations.WaveformSampleBySample
  intro c spb bits n p x hx hp
  rw [encodeWave, stamp_getElem?, encodeLevels_getElem? hx hp, Option.map_some]

/-- AMI's polarity in closed form (42_line_code_generators.md R154). -/
theorem polAfter_level_val (bits : List Bit) : (polAfter bits).level.val = (-1) ^ (bits.count true + 1) := by
  by_cases hodd : bits.count true % 2 = 1
  · have heven : Even (bits.count true + 1) := Nat.even_iff.2 (by omega)
    rw [polAfter, if_pos hodd, heven.neg_one_pow]
    rfl
  · have hodd' : Odd (bits.count true + 1) := Nat.odd_iff.2 (by omega)
    rw [polAfter, if_neg hodd, hodd'.neg_one_pow]
    rfl

theorem level_ami_val (spb : Nat) (x : Bit) (p : Nat) (pol : Polarity) :
    (level .ami spb x p pol).val = (x.toNat : Int) * pol.level.val := by
  cases x <;> simp [level, lvlAmi, Level.val]

/-- Settles O37: the level of the bit at the polarity after it. -/
theorem amiClosedForm : Obligations.AmiClosedForm := by
  unfold Obligations.AmiClosedForm
  intro spb bits n p x hx hp
  rw [encodeLevels_getElem? hx hp, Option.map_some, level_ami_val, polAfter_level_val]

/-! ### A Waveform as one map over its sample indices -/

/-- The level of sample `k`: bit `floor(k / SPB)` at phase `k mod SPB`, at AMI's polarity after that bit. -/
def levelAt (c : Scheme) (spb : Nat) (bits : List Bit) (k : Nat) : Level :=
  level c spb (bits.getD (k / spb) false) (k % spb) (polAfter (bits.take (k / spb + 1)))

theorem encodeLevels_eq_map (c : Scheme) (spb : Nat) (bits : List Bit) :
    encodeLevels c spb bits = (List.range (bits.length * spb)).map (levelAt c spb bits) := by
  rw [← levelsOf_encodeWave, encodeWave_eq_map_sampleAt, levelsOf, List.map_map]
  exact List.map_congr_left fun k _ => by simp [sampleAt_eq, levelAt]

/-- A sample's bit is one of the operand. -/
theorem getElem?_div_of_lt {spb k : Nat} {bits : List Bit} (hk : k < bits.length * spb) :
    ∃ x, bits[k / spb]? = some x := by
  have hn : k / spb < bits.length := Nat.div_lt_of_lt_mul (by rwa [Nat.mul_comm])
  exact ⟨_, List.getElem?_eq_getElem hn⟩

/-- Every level of a Waveform is the scheme's level of some bit of the operand at some phase and polarity. -/
theorem exists_level_of_mem {c : Scheme} {spb : Nat} {bits : List Bit} {l : Level} (hl : l ∈ encodeLevels c spb bits) :
    ∃ x ∈ bits, ∃ p pol, l = level c spb x p pol := by
  rw [encodeLevels_eq_map, List.mem_map] at hl
  obtain ⟨k, hk, rfl⟩ := hl
  obtain ⟨x, hx⟩ := getElem?_div_of_lt (List.mem_range.1 hk)
  exact ⟨x, List.mem_of_getElem? hx, k % spb, polAfter (bits.take (k / spb + 1)), by simp [levelAt, hx]⟩

/-- A scheme whose level is the same for all bits of the operand gives a constant Waveform. -/
theorem encodeLevels_eq_replicate {c : Scheme} {spb : Nat} {bits : List Bit} {l : Level}
    (h : ∀ x ∈ bits, ∀ p pol, level c spb x p pol = l) : encodeLevels c spb bits = List.replicate (bits.length * spb) l := by
  rw [List.eq_replicate_iff, encodeLevels_length]
  refine ⟨rfl, fun b hb => ?_⟩
  obtain ⟨x, hx, p, pol, rfl⟩ := exists_level_of_mem hb
  exact h x hx p pol

/-- Two schemes, the second over the bits changed by `φ`, agree sample by sample in what `f` and `g` see of them when they
agree in it bit by bit. -/
theorem encodeLevels_map_congr {α : Type} {c d : Scheme} {f g : Level → α} {φ : Bit → Bit} {spb : Nat}
    (h : ∀ x p pol pol', f (level c spb x p pol) = g (level d spb (φ x) p pol')) (bits : List Bit) :
    (encodeLevels c spb bits).map f = (encodeLevels d spb (bits.map φ)).map g := by
  rw [encodeLevels_eq_map, encodeLevels_eq_map, List.length_map, List.map_map, List.map_map]
  refine List.map_congr_left fun k hk => ?_
  obtain ⟨x, hx⟩ := getElem?_div_of_lt (List.mem_range.1 hk)
  simpa [levelAt, hx] using h x (k % spb) _ _

/-- The same bits in both schemes. -/
theorem encodeLevels_map_eq {α : Type} {c d : Scheme} {f g : Level → α} {spb : Nat}
    (h : ∀ x p pol pol', f (level c spb x p pol) = g (level d spb x p pol')) (bits : List Bit) :
    (encodeLevels c spb bits).map f = (encodeLevels d spb bits).map g := by
  simpa using encodeLevels_map_congr (φ := id) h bits

theorem encodeWave_congr {c d : Scheme} {φ : Bit → Bit} {spb : Nat}
    (h : ∀ x p pol pol', level c spb x p pol = level d spb (φ x) p pol') (bits : List Bit) :
    encodeWave c spb bits = encodeWave d spb (bits.map φ) := by
  have hlevels := encodeLevels_map_congr (f := id) (g := id) h bits
  rw [List.map_id, List.map_id] at hlevels
  rw [encodeWave, encodeWave, hlevels]

theorem encodeWave_eq {c d : Scheme} {spb : Nat} (h : ∀ x p pol pol', level c spb x p pol = level d spb x p pol')
    (bits : List Bit) : encodeWave c spb bits = encodeWave d spb bits := by
  simpa using encodeWave_congr (φ := id) h bits

/-! ### Identities between the lanes (42_line_code_generators.md R162) -/

theorem encodeWave_rzb_eq_rzu (spb : Nat) : ∀ bits, encodeWave .rzb spb bits = encodeWave .rzu spb bits :=
  encodeWave_eq fun _ _ _ _ => rfl

theorem encodeWave_mark_eq_nrzu (spb : Nat) : ∀ bits, encodeWave .mark spb bits = encodeWave .nrzu spb bits :=
  encodeWave_eq fun _ _ _ _ => rfl

/-- The clock is the return-to-zero lane of 1-bits. -/
theorem encodeWave_clk_eq_rzu (spb : Nat) (bits : List Bit) :
    encodeWave .clk spb bits = encodeWave .rzu spb (List.replicate bits.length true) := by
  rw [← List.map_const']
  exact encodeWave_congr (fun _ _ _ _ => rfl) bits

/-- Settles O41: each identity holds bit by bit, phase by phase. -/
theorem laneIdentities : Obligations.LaneIdentities := by
  unfold Obligations.LaneIdentities
  intro spb bits
  refine ⟨encodeWave_rzb_eq_rzu spb bits, encodeWave_mark_eq_nrzu spb bits, encodeLevels_map_eq (fun x p pol pol' => ?_) bits,
    encodeLevels_map_eq (fun x p pol pol' => ?_) bits, encodeWave_clk_eq_rzu spb bits,
    encodeLevels_map_congr (fun x p pol pol' => ?_) bits, encodeLevels_map_eq (fun x p pol pol' => ?_) bits, ?_⟩
  · cases x <;> rfl
  · cases x <;> rfl
  · cases x <;> cases hhalf : firstHalf spb p <;> simp [level, lvlMan, Level.val, hhalf]
  · cases x <;> cases pol <;> rfl
  · simp only [encodeLevels_eq_map, List.map_map, List.zipWith_map, List.zipWith_self]
    refine List.map_congr_left fun k _ => ?_
    cases bits.getD (k / spb) false <;> cases hhalf : firstHalf spb (k % spb) <;>
      simp [levelAt, level, lvlRzu, lvlNrzu, lvlClk, Level.val, hhalf]

theorem level_ne_neg {c : Scheme} (hc : ¬ (c = .nrzb ∨ c = .ami ∨ c = .man)) (spb : Nat) (x : Bit) (p : Nat)
    (pol : Polarity) : level c spb x p pol ≠ .neg := by
  cases c with
  | nrzb | ami | man => simp at hc
  | nrzu | rzu | rzb | mark | space | clk =>
    simp only [level, lvlNrzu, lvlRzu, lvlRzb, lvlMark, lvlSpace, lvlClk]
    split <;> simp

theorem level_ne_zero {c : Scheme} (hc : c = .nrzb ∨ c = .man) (spb : Nat) (x : Bit) (p : Nat) (pol : Polarity) :
    level c spb x p pol ≠ .zero := by
  obtain rfl | rfl := hc
  · cases x <;> simp [level, lvlNrzb]
  · cases hhalf : x == firstHalf spb p <;> simp [level, lvlMan, hhalf]

/-- Settles O42: the level functions' values, lane by lane. -/
theorem levelsEachLaneEmits : Obligations.LevelsEachLaneEmits := by
  unfold Obligations.LevelsEachLaneEmits
  intro c spb bits l hl
  obtain ⟨x, -, p, pol, rfl⟩ := exists_level_of_mem hl
  refine ⟨fun hneg => ?_, fun hzero => ?_⟩
  · by_contra hc
    exact level_ne_neg hc spb x p pol hneg
  · rw [← not_or]
    exact fun hc => level_ne_zero hc spb x p pol hzero

/-! ### One sample per bit -/

/-- With `SPB` 1 no phase is in the first half (42_line_code_generators.md R161). -/
theorem firstHalf_one (p : Nat) : firstHalf 1 p = false := decide_eq_false (Nat.not_lt_zero p)

/-- With `SPB` 1 a lane other than AMI is a map over the bits. -/
theorem encodeLevels_one {c : Scheme} (hc : c ≠ .ami) (bits : List Bit) :
    encodeLevels c 1 bits = bits.map fun x => level c 1 x 0 .minus := by
  simp [encodeLevels, hc, bitBlock, List.map_eq_flatMap]

/-- Settles O44: every lane's level of a bit at the one phase. -/
theorem oneSamplePerBit : Obligations.OneSamplePerBit := by
  unfold Obligations.OneSamplePerBit
  intro bits
  simp only [encodeLevels_one (c := .nrzu) (by decide), encodeLevels_one (c := .nrzb) (by decide),
    encodeLevels_one (c := .rzu) (by decide), encodeLevels_one (c := .rzb) (by decide),
    encodeLevels_one (c := .man) (by decide), encodeLevels_one (c := .mark) (by decide),
    encodeLevels_one (c := .space) (by decide), encodeLevels_one (c := .clk) (by decide), List.map_map]
  refine ⟨?_, ?_, ?_, ?_, ?_, ?_, ?_, ?_⟩
  all_goals exact List.map_congr_left fun x _ => by cases x <;> rfl

/-! ### Concatenation -/

@[simp] theorem polAfter_nil : polAfter [] = .minus := rfl

/-- The AMI fold over a concatenation goes on at the polarity after the first part (42_line_code_generators.md R170). -/
theorem amiLevels_append (spb : Nat) (seen a b : List Bit) :
    amiLevels spb (polAfter seen) (a ++ b) =
      amiLevels spb (polAfter seen) a ++ amiLevels spb (polAfter (seen ++ a)) b := by
  induction b using List.reverseRecOn with
  | nil => simp [amiLevels]
  | append_singleton b x ih =>
    rw [← List.append_assoc, amiLevels_snoc, ih, amiLevels_snoc, List.append_assoc, ← List.append_assoc seen]

theorem Polarity.level_flip_val (pol : Polarity) : pol.flip.level.val = -pol.level.val := by cases pol <;> rfl

/-- The same bits from the other polarity give every level negated. -/
theorem amiLevels_flip_val (spb : Nat) (pol : Polarity) (bits : List Bit) :
    (amiLevels spb pol.flip bits).map Level.val = (amiLevels spb pol bits).map fun l => -l.val := by
  induction bits generalizing pol with
  | nil => rfl
  | cons x bits ih =>
    cases x
    · simp [amiLevels, bitBlock, lvlAmi, Level.val, ih]
    · simp [amiLevels, bitBlock, lvlAmi, ih, pol.flip.level_flip_val]

theorem encodeLevels_append {c : Scheme} {a : List Bit} (h : c ≠ .ami ∨ a.count true % 2 = 0) (spb : Nat) (b : List Bit) :
    encodeLevels c spb (a ++ b) = encodeLevels c spb a ++ encodeLevels c spb b := by
  by_cases hc : c = .ami
  · have hpol : polAfter a = .minus := if_neg (by have := h.neg_resolve_left hc; omega)
    subst hc
    simpa [hpol, encodeLevels] using amiLevels_append spb [] a b
  · simp [encodeLevels, hc]

theorem encodeLevels_ami_append_val {a : List Bit} (h : a.count true % 2 = 1) (spb : Nat) (b : List Bit) :
    (encodeLevels .ami spb (a ++ b)).map Level.val =
      (encodeLevels .ami spb a).map Level.val ++ (encodeLevels .ami spb b).map (fun l => -l.val) := by
  have hpol : polAfter a = Polarity.flip .minus := if_pos h
  have happend : encodeLevels .ami spb (a ++ b) = encodeLevels .ami spb a ++ amiLevels spb (Polarity.flip .minus) b := by
    simpa [hpol, encodeLevels] using amiLevels_append spb [] a b
  rw [happend, List.map_append, amiLevels_flip_val]
  rfl

/-- The time axis of `m + n` bits: that of `m`, then that of `n` shifted by `m` bits. -/
theorem sampleTimes_add {spb : Nat} (hspb : 1 ≤ spb) (m n : Nat) :
    sampleTimes spb ((m + n) * spb) =
      sampleTimes spb (m * spb) ++ (sampleTimes spb (n * spb)).map fun t => t + (m : Rat) := by
  have hne : (spb : Rat) ≠ 0 := Nat.cast_ne_zero.2 (Nat.one_le_iff_ne_zero.1 hspb)
  rw [sampleTimes, Nat.add_mul, List.range_add, List.map_append, sampleTimes, sampleTimes, List.map_map, List.map_map]
  congr 1
  refine List.map_congr_left fun k _ => ?_
  simp [add_div, hne, add_comm]

/-- Settles O45: block by block, with the polarity after the first part for AMI, and the times by the length law. -/
theorem encodingConcatenates : Obligations.EncodingConcatenates := by
  unfold Obligations.EncodingConcatenates
  refine ⟨fun c spb a b h => encodeLevels_append h spb b, fun spb a b h => encodeLevels_ami_append_val h spb b,
    fun c spb a b hspb => ?_⟩
  simp only [timesOf_encodeWave, List.length_append, sampleTimes_add hspb]

end Sys2Proof.Machine
end

section
/-! SUPPORT. The `ENC` commands lane by lane: their words, their sample steps and their Waveforms
(42_line_code_generators.md section 2). -/

namespace Sys2Proof.Machine

/-! ### The sample step -/

/-- The sample step of a lane other than AMI writes its level of the bit and the phase and keeps `POL`. -/
theorem exec_sample_of_ne_ami {i : Instr} {c : Scheme} {x : Bit} {s : State} {l : Level} (hi : i = .enc c) (hc : c ≠ .ami)
    (h : AtSample x s) (hl : level c s.cfg.spb x s.p s.pol = l) : exec i s = .next (s.withSample l s.pol) := by
  rw [hi, exec_enc, enc_sample_of h, polFor_of_ne_ami hc, hl]

/-- The sample step of AMI (42_line_code_generators.md R149). -/
theorem exec_encAmi_sample {x : Bit} {s : State} (h : AtSample x s) :
    exec .encAmi s = .next (s.withSample (lvlAmi x (polFor .ami x s.p s.pol)) (polFor .ami x s.p s.pol)) :=
  (exec_enc .ami s).trans (enc_sample_of h)

/-! ### NRZU, NRZB, MARK, SPACE -/

theorem encodeLevels_space_add_mark (spb : Nat) (bits : List Bit) :
    List.Forall₂ (fun a b : Level => a.val + b.val = 1) (encodeLevels .space spb bits) (encodeLevels .mark spb bits) := by
  rw [encodeLevels_eq_map, encodeLevels_eq_map, List.forall₂_map_left_iff, List.forall₂_map_right_iff, List.forall₂_same]
  intro k _
  cases hbit : bits.getD (k / spb) false <;> rw [levelAt, levelAt, hbit] <;> rfl

/-- Settles O30: the level functions of the bit alone, sample step and Waveform. -/
theorem constantBlockLanes : Obligations.ConstantBlockLanes := by
  unfold Obligations.ConstantBlockLanes
  refine ⟨decode_encode .encNrzu, decode_encode .encNrzb, decode_encode .encMark, decode_encode .encSpace, rfl, rfl, rfl,
    rfl, fun spb x p pol => ?_, fun x s h => ?_, fun spb m => ?_,
    encodeWave_mark_eq_nrzu, encodeLevels_space_add_mark, by decide, by decide, by decide, by decide⟩
  · cases x <;> exact ⟨rfl, rfl, rfl, rfl⟩
  · exact ⟨exec_sample_of_ne_ami (c := .nrzu) rfl (by decide) h rfl,
      exec_sample_of_ne_ami (c := .nrzb) rfl (by decide) h rfl,
      exec_sample_of_ne_ami (c := .mark) rfl (by decide) h rfl,
      exec_sample_of_ne_ami (c := .space) rfl (by decide) h rfl⟩
  · have hzero : ∀ x ∈ List.replicate m false, ∀ p pol, level .nrzu spb x p pol = .zero := fun x hx p pol => by
      rw [List.eq_of_mem_replicate hx]; rfl
    rw [encodeLevels_eq_replicate hzero, List.length_replicate]

/-! ### RZU, RZB, MAN, CLK -/

theorem level_rzu_eq (spb : Nat) (x : Bit) (p : Nat) (pol : Polarity) :
    level .rzu spb x p pol = if x = true ∧ p < spb / 2 then .pos else .zero := by
  simp [level, lvlRzu, firstHalf]

theorem level_clk_eq (spb : Nat) (x : Bit) (p : Nat) (pol : Polarity) :
    level .clk spb x p pol = if p < spb / 2 then .pos else .zero := by
  simp [level, lvlClk, firstHalf]

/-- The block of a bit in RZU: a 1-bit is high in its first half, a 0-bit never (42_line_code_generators.md R147). -/
theorem bitBlock_rzu (spb : Nat) (x : Bit) :
    bitBlock spb (fun p => level .rzu spb x p .minus) =
      if x then List.replicate (spb / 2) Level.pos ++ List.replicate (spb - spb / 2) Level.zero
      else List.replicate spb Level.zero := by
  have hblock : bitBlock spb (fun p => level .rzu spb x p .minus) = _ :=
    bitBlock_of_firstHalf spb fun first => if x && first then .pos else .zero
  rw [hblock]
  cases x
  · simp [List.replicate_append_replicate, Nat.add_sub_cancel' (Nat.div_le_self spb 2)]
  · rfl

/-- The block of a bit in MAN: low then high for a 1-bit, high then low for a 0-bit (42_line_code_generators.md R150). -/
theorem bitBlock_man (spb : Nat) (x : Bit) :
    bitBlock spb (fun p => level .man spb x p .minus) =
      if x then List.replicate (spb / 2) Level.neg ++ List.replicate (spb - spb / 2) Level.pos
      else List.replicate (spb / 2) Level.pos ++ List.replicate (spb - spb / 2) Level.neg := by
  have hblock : bitBlock spb (fun p => level .man spb x p .minus) = _ :=
    bitBlock_of_firstHalf spb fun first => if x == first then .neg else .pos
  rw [hblock]
  cases x <;> rfl

/-- The block of any bit in CLK (42_line_code_generators.md R153). -/
theorem bitBlock_clk (spb : Nat) (x : Bit) :
    bitBlock spb (fun p => level .clk spb x p .minus) =
      List.replicate (spb / 2) Level.pos ++ List.replicate (spb - spb / 2) Level.zero :=
  bitBlock_of_firstHalf spb fun first => if first then .pos else .zero

theorem encodeWave_man_one (bits : List Bit) : encodeWave .man 1 bits = encodeWave .nrzb 1 bits := by
  refine encodeWave_eq (fun x p pol pol' => ?_) bits
  cases x <;> simp [level, lvlMan, lvlNrzb, firstHalf_one]

/-- Settles O31: the level functions of the bit and the half, sample step, block and Waveform. -/
theorem halfBlockLanes : Obligations.HalfBlockLanes := by
  unfold Obligations.HalfBlockLanes
  refine ⟨decode_encode .encRzu, decode_encode .encRzb, decode_encode .encMan, decode_encode .encClk, rfl, rfl, rfl, rfl,
    fun x s h => ?_,
    fun spb x => ⟨bitBlock_rzu spb x, bitBlock_man spb x, bitBlock_clk spb x⟩, encodeWave_rzb_eq_rzu, fun bits => ?_,
    fun spb a b hlen => ?_, by decide, by decide, by decide, by decide, by decide, by decide⟩
  · exact ⟨exec_sample_of_ne_ami (c := .rzu) rfl (by decide) h (level_rzu_eq _ _ _ _),
      exec_sample_of_ne_ami (c := .rzb) rfl (by decide) h (level_rzu_eq _ _ _ s.pol),
      exec_sample_of_ne_ami (c := .man) rfl (by decide) h (level_man_eq _ _ _),
      exec_sample_of_ne_ami (c := .clk) rfl (by decide) h (level_clk_eq _ _ _ _)⟩
  · have hzero {c : Scheme} (h : ∀ x p pol, level c 1 x p pol = .zero) :
        encodeLevels c 1 bits = List.replicate bits.length .zero := by
      rw [encodeLevels_eq_replicate fun x _ => h x, Nat.mul_one]
    exact ⟨hzero fun x p pol => by simp [level_rzu_eq], hzero fun x p pol => by simp [level_clk_eq], encodeWave_man_one bits⟩
  · rw [encodeWave_clk_eq_rzu, encodeWave_clk_eq_rzu, hlen]

/-! ### AMI -/

/-- 0-bits are zero blocks and leave the polarity (42_line_code_generators.md R149). -/
theorem amiLevels_zeros (spb : Nat) (pol : Polarity) (m : Nat) (bits : List Bit) :
    amiLevels spb pol (List.replicate m false ++ bits) = List.replicate (m * spb) Level.zero ++ amiLevels spb pol bits := by
  induction m with
  | zero => simp
  | succ m ih =>
    rw [List.replicate_succ, List.cons_append, amiLevels, ih, ← List.append_assoc, Nat.succ_mul, Nat.add_comm,
      List.replicate_add]
    simp [bitBlock, lvlAmi]

/-- A 1-bit flips the polarity and is a block at the new one (42_line_code_generators.md R149). -/
theorem amiLevels_one (spb : Nat) (pol : Polarity) (bits : List Bit) :
    amiLevels spb pol (true :: bits) = List.replicate spb pol.flip.level ++ amiLevels spb pol.flip bits := by
  simp [amiLevels, bitBlock, lvlAmi]

theorem encodeLevels_ami (spb : Nat) (bits : List Bit) : encodeLevels .ami spb bits = amiLevels spb .minus bits :=
  if_pos rfl

/-- The first 1-bit is at +1 and the second at -1, whatever 0-bits lie before and between them. -/
theorem encodeLevels_ami_two_ones (spb m k : Nat) :
    encodeLevels .ami spb (List.replicate m false ++ [true] ++ List.replicate k false ++ [true]) =
      List.replicate (m * spb) Level.zero ++ List.replicate spb Level.pos ++ List.replicate (k * spb) Level.zero ++
        List.replicate spb Level.neg := by
  calc encodeLevels .ami spb (List.replicate m false ++ [true] ++ List.replicate k false ++ [true])
      = amiLevels spb .minus (List.replicate m false ++ true :: (List.replicate k false ++ [true])) := by
        simp [encodeLevels_ami]
    _ = _ := by
        rw [amiLevels_zeros, amiLevels_one, amiLevels_zeros, amiLevels_one]
        simp [amiLevels, Polarity.flip, Polarity.level]

/-- Settles O32: the three kinds of sample step by bit and phase, and the fold over 0-bits and 1-bits. -/
theorem amiLane : Obligations.AmiLane := by
  unfold Obligations.AmiLane
  refine ⟨decode_encode .encAmi, rfl, fun r rest s h => ⟨_, exec_enc_of_accepts (c := .ami) h, rfl, rfl, rfl⟩, fun s h => ?_,
    fun s h hp => ?_, fun s h hp => ?_, fun spb m => ?_, encodeLevels_ami_two_ones, by decide⟩
  · rw [exec_encAmi_sample h]
    simp [polFor, lvlAmi]
  · rw [exec_encAmi_sample h]
    cases hpol : s.pol <;> simp [polFor, lvlAmi, hp, Polarity.flip, Polarity.level]
  · rw [exec_encAmi_sample h]
    cases hpol : s.pol <;> simp [polFor, lvlAmi, hp, Polarity.level]
  · simpa [encodeLevels_ami, amiLevels] using amiLevels_zeros spb .minus m []

end Sys2Proof.Machine
end
